-- ==== Sys2Proof/Word.lean ====
section
/-! DEFINITION. The words of HAM74 and the host values of its adapter.

A bit is two-valued (00_scope.md R7). Packed words follow 20_memory.md R33 to R36. -/

namespace Sys2Proof

/-- A bit, 1 being `true` (00_scope.md R7). -/
abbrev Bit := Bool

/-- A packed data word `D[3:0]`, `D[3-i] = di` (20_memory.md R33). -/
abbrev DataWord := BitVec 4

/-- A packed codeword `C[6:0]`, `C[7-p] = cp` (20_memory.md R34). -/
abbrev Codeword := BitVec 7

/-- A syndrome `s[2:0]` (10_state.md R24). -/
abbrev Syndrome := BitVec 3

/-- An 8-bit command word or result word (30_encoding.md R46, R49, R54). -/
abbrev Word := BitVec 8

/-- An element of a host list: an integer, or any other value, kept as its written form
(60_exceptions.md R83; the written form is a DESIGN CHOICE, notes/assumptions/6.md). -/
inductive Elem where
  | int (n : Int)
  | nonInt (x : String)
deriving DecidableEq, Repr

/-- A host value: a list, a character string, a sequence that is neither, or a value that is not
a sequence; the last two are kept as their written forms (60_exceptions.md R83; DESIGN CHOICE,
notes/assumptions/6.md). -/
inductive HostValue where
  | list (elems : List Elem)
  | str (x : String)
  | otherSeq (x : String)
  | nonSeq (x : String)
deriving DecidableEq, Repr

end Sys2Proof
end

