-- ==== Sys2Proof/Syntax.lean ====
section
/-! DEFINITION. The operations of HAM74, one constructor per row of spec/opcode_table.json. -/

namespace Sys2Proof

/-- A command the core performs: the operation with its packed operand, bit for bit
(30_encoding.md R45, R47, R48, R50). -/
inductive Instr where
  /-- ENCODE of the data word `D` (40_encoder.md R64). -/
  | encode (d : DataWord)
  /-- DECODE of the received word `C`, any of the 128 (41_decoder.md R73). -/
  | decode (c : Codeword)
deriving DecidableEq, Repr

end Sys2Proof
end

