-- ==== Sys2Proof/WellFormed.lean ====
section
/-! DEFINITION. What is well formed: an instruction, a command word, a host operand.

The widths of an instruction's operands are fixed by its type (20_memory.md R36), and every operand
of that width is legal (40_encoder.md R64, 41_decoder.md R73), so an `Instr` needs no further check.
The checks that can fail are those of a command word (30_encoding.md R52) and of a host operand
(60_exceptions.md R84, R85). -/

namespace Sys2Proof

/-- Every `Instr` is well formed: each 4-bit `D` and each 7-bit `C` is a legal operand. -/
def Instr.wf : Instr → Bool
  | .encode _ => true
  | .decode _ => true

/-- A command word is well formed unless OP = 0 and its reserved bits `CMD[6:4]` are not 000
(30_encoding.md R47, R52). -/
def cmdWf (w : Word) : Bool := w.getLsbD 7 || w.extractLsb' 4 3 == 0#3

/-- An element that is the integer 0 or 1 (60_exceptions.md R84: "exactly 0 or 1"). -/
def Elem.isBit : Elem → Bool
  | .int n => n == 0 || n == 1
  | .nonInt _ => false

/-- A host operand of `n` bits: a list, of that length, of integers 0 and 1 only. -/
def HostValue.wf (n : Nat) : HostValue → Bool
  | .list l => l.all Elem.isBit && l.length == n
  | .str _ => false
  | .otherSeq _ => false
  | .nonSeq _ => false

end Sys2Proof
end

