-- ==== Sys2Proof/Decode.lean ====
section
/-! DEFINITION. The decoder of command words, total on all 256, and the encoder. -/

namespace Sys2Proof

/-- Why a command word names no operation (30_encoding.md R51, R52). -/
inductive DecodeReject where
  /-- OP = 0 with `CMD[6:4]` other than 000: the 112 words 0x10 to 0x7F. -/
  | reservedEncodeBits
deriving DecidableEq, Repr

/-- The operation bit OP, `CMD[7]` (30_encoding.md R46). -/
def cmdOp (w : Word) : Bit := w.getLsbD 7

/-- The reserved field RSV of format F-ENC, `CMD[6:4]` (30_encoding.md R47). -/
def cmdRsv (w : Word) : BitVec 3 := w.extractLsb' 4 3

/-- The operand field D of format F-ENC, `CMD[3:0]` (30_encoding.md R47). -/
def cmdData (w : Word) : DataWord := w.extractLsb' 0 4

/-- The operand field C of format F-DEC, `CMD[6:0]` (30_encoding.md R48). -/
def cmdCode (w : Word) : Codeword := w.extractLsb' 0 7

/-- `decode_cmd` (30_encoding.md R51). -/
def decodeCmd (w : Word) : Except DecodeReject Instr :=
  if cmdOp w then .ok (.decode (cmdCode w))
  else if cmdRsv w = 0#3 then .ok (.encode (cmdData w))
  else .error .reservedEncodeBits

/-- The command word of an instruction: `0000dddd` or `1ccccccc` (30_encoding.md R47, R48). -/
def encodeCmd : Instr → Word
  | .encode d => 0#4 ++ d
  | .decode c => 1#1 ++ c

/-- A row of the opcode map (30_encoding.md, section 5). -/
structure OpcodeRow where
  mnemonic : String
  matchBits : Word
  mask : Word
deriving DecidableEq, Repr

/-- The opcode map (30_encoding.md, section 5; opcode_table.json). -/
def opcodeTable : List OpcodeRow :=
  [⟨"encode", 0x00#8, 0xF0#8⟩, ⟨"decode", 0x80#8, 0x80#8⟩]

/-- A word matches a row when its bits under the row's mask are the row's match bits. -/
def OpcodeRow.matches (r : OpcodeRow) (w : Word) : Bool := w &&& r.mask == r.matchBits

/-- The instruction the decoder reads from the `nbits` table bits `w`: the bits above `nbits` are 0,
and no command word is longer than 8 bits (30_encoding.md R54; none for more than 8 is a DESIGN CHOICE,
notes/assumptions/12.md). -/
def decodeTableWord (nbits w : Nat) : Option Instr :=
  if nbits ≤ 8 then
    match decodeCmd (BitVec.ofNat 8 (w % 2 ^ nbits)) with
    | .ok i => some i
    | .error _ => none
  else none

end Sys2Proof
end

