-- ==== Sys2Proof/Config.lean ====
section
/-! DEFINITION. The parameters of HAM74 and its one free value.

Every parameter is fixed by the source (00_scope.md R6). The settling time T_SETTLE is left out,
as R6 says an untimed model does (92_eei_decisions.md D15). -/

namespace Sys2Proof

/-- `N`, the codeword length (00_scope.md R6). -/
def Config.codewordLength : Nat := 7

/-- `K`, the data word length (00_scope.md R6). -/
def Config.dataLength : Nat := 4

/-- `R`, the parity bit count and syndrome width (00_scope.md R6). -/
def Config.parityCount : Nat := 3

/-- The contents of a host's list after the `n`-th host call that passed one: a draw
(60_exceptions.md R104, 93_implementation_defined.md I2 and I3; DESIGN CHOICE,
notes/assumptions/4.md). It has no body that a proof could use. -/
opaque Config.freeHostList : Nat → List Elem

end Sys2Proof
end

