-- ==== Sys2Proof/Machine/State.lean ====
section
/-! DEFINITION. The state of the model.

HAM74 itself has no architectural state (10_state.md R13 to R19, R28). What is held here is what a
run of it shows: the settled values at the two input ports (R20 to R22; the outputs and the internal
nets are functions of them, never stored), the transactions the host has issued and has not yet had
performed, the outcome of each one performed (70_reset_and_hazards.md R112), the result word of the
transaction in hand (30_encoding.md R49), the refusal mark (30_encoding.md R53) and the model's own
counter of draws (60_exceptions.md R104). That a run is held so is a DESIGN CHOICE,
notes/assumptions/9.md: no operation reads any of it back into a result. -/

namespace Sys2Proof.Machine

/-- The two operations (30_encoding.md R45). -/
inductive Op where
  | encode
  | decode
deriving DecidableEq, Repr

/-- The two error kinds (60_exceptions.md R86). -/
inductive ErrorKind where
  | typeKind
  | valueKind
deriving DecidableEq, Repr

/-- The four error causes, named as in 60_exceptions.md R86. -/
inductive Cause where
  | notList
  | notBinary
  | encLength
  | decLength
deriving DecidableEq, Repr

/-- What an error records: its kind, its code and its literal message, nothing else
(60_exceptions.md R88, R89). -/
structure ErrorRecord where
  kind : ErrorKind
  code : Nat
  message : String
deriving DecidableEq, Repr

/-- The reasons a transaction is refused (30_encoding.md R51; 60_exceptions.md R84, R85). A refusal
is an outcome of its transaction: the run goes on (95_test_vectors.md P5; DEDUCED,
notes/assumptions/2.md). -/
inductive RefuseReason where
  /-- A reserved command word (30_encoding.md R52). -/
  | reservedEncodeBits
  /-- A sequence that is neither a list nor a string (92_eei_decisions.md D9). -/
  | nonListSequence
  /-- A list element that is no integer (92_eei_decisions.md D10). -/
  | nonIntegerElement
deriving DecidableEq, Repr

/-- A transaction as the host issues it: a host call with a host value, or a raw command word
(30_encoding.md R45, R55). -/
inductive Request where
  | call (op : Op) (v : HostValue)
  | cmd (w : Word)
deriving DecidableEq, Repr

/-- The outcome of a transaction (30_encoding.md R45, R49, R53; 60_exceptions.md R84, R88). -/
inductive TxOutcome where
  /-- The result word of a raw command word. -/
  | result (res : Word)
  /-- The list a host call returns, unpacked from the result word, as bits (DESIGN CHOICE,
  notes/assumptions/13.md). -/
  | values (bits : List Bit)
  /-- A validation error of the host adapter. -/
  | error (e : ErrorRecord)
  /-- A refusal; it has no kind, code or message. -/
  | refused (r : RefuseReason)
deriving DecidableEq, Repr

/-- A transaction that has had its outcome. -/
structure Completed where
  /-- The transaction as it was issued. -/
  request : Request
  /-- Its one outcome. -/
  outcome : TxOutcome
  /-- The contents afterwards of the list the host passed, where it passed one
  (60_exceptions.md R104). -/
  hostCopy : Option (List Elem)
deriving DecidableEq, Repr

/-- The state of a run. No register, program counter, flag or memory: HAM74 has none
(10_state.md R14 to R18, 20_memory.md R29). -/
structure State where
  /-- The settled value at the input port `enc_d`; `none` before any (10_state.md R20,
  70_reset_and_hazards.md R106). It stays until a transaction changes it (DEDUCED,
  notes/assumptions/5.md). -/
  encD : Option DataWord
  /-- The settled value at the input port `dec_r`; `none` before any (10_state.md R21,
  70_reset_and_hazards.md R106). It stays until a transaction changes it (DEDUCED,
  notes/assumptions/5.md). -/
  decR : Option Codeword
  /-- The result word `RES` of the latest transaction; `none` where it has none
  (30_encoding.md R49). -/
  res : Option Word
  /-- The transactions issued by the host and not yet performed, the next one first
  (60_exceptions.md R98, 70_reset_and_hazards.md R112). One schedule is fixed, as R98 allows
  (DESIGN CHOICE, notes/assumptions/8.md). -/
  pending : List Request
  /-- The transactions performed, the earliest first, each with its outcome
  (70_reset_and_hazards.md R112). -/
  completed : List Completed
  /-- The refusal mark of the run (30_encoding.md R53). -/
  refusalMark : Bool
  /-- The model's own counter of the draws taken from `Config.freeHostList`
  (DESIGN CHOICE, notes/assumptions/4.md). -/
  draws : Nat
deriving DecidableEq, Repr

/-- Why the machine stops with a fault. The source gives the block none (60_exceptions.md R92). -/
inductive Fault where
  /-- Raised by `finish` if a performed instruction leaves no result word. Both meanings leave one,
  so no step raises it: it keeps `finish` total (DESIGN CHOICE, notes/assumptions/11.md). Safe. -/
  | noResultWord
deriving DecidableEq, Repr

/-- Why the machine gives an instruction no meaning. -/
inductive Refusal where
  /-- Raised by an arm of `exec` for an instruction without a meaning; no arm does now. Safe. -/
  | notModelled (mnemonic : String)
deriving DecidableEq, Repr

/-- The machine after power-up, before any transaction. HAM74 has no reset and no reset value
(10_state.md R28, 70_reset_and_hazards.md R105 to R107): no input has settled, nothing is issued,
nothing is performed, the refusal mark is clear (95_test_vectors.md section 3; DEDUCED,
notes/assumptions/10.md). `draws` starts at 0 (DESIGN CHOICE, notes/assumptions/4.md). -/
def State.reset : State where
  encD := none
  decR := none
  res := none
  pending := []
  completed := []
  refusalMark := false
  draws := 0

end Sys2Proof.Machine
end

