-- ==== Sys2Proof/Machine/Flags.lean ====
section
/-! DEFINITION. Flags. HAM74 has none: no operation sets one, and a correction or a miscorrection is
not reported (10_state.md R16). The one mark a run carries is the model's refusal mark
(30_encoding.md R53); how an outcome changes it is here. -/

namespace Sys2Proof.Machine

/-- Whether an outcome is a refusal. -/
def TxOutcome.isRefused : TxOutcome → Bool
  | .result _ => false
  | .values _ => false
  | .error _ => false
  | .refused _ => true

/-- Whether an outcome is a result: neither an error nor a refusal (30_encoding.md R45). -/
def TxOutcome.isSuccess : TxOutcome → Bool
  | .result _ => true
  | .values _ => true
  | .error _ => false
  | .refused _ => false

/-- The refusal mark after an outcome: set by a refusal, and never cleared (30_encoding.md R53:
"records the refusal for the whole run"). -/
def markAfter (mark : Bool) (o : TxOutcome) : Bool := mark || o.isRefused

end Sys2Proof.Machine
end

