-- ==== Sys2Proof/Machine/Ops.lean ====
section
/-! DEFINITION. The named operations over the state: driving a port, giving a result word, taking the
next transaction, closing one, and the two ways a transaction ends without a result: raising a
validation error (60_exceptions.md R88 to R90, R94) and refusing (30_encoding.md R53).

HAM74 has no trap: an error saves nothing, changes no mode and jumps nowhere, and there is no return
from it (60_exceptions.md R94); `State.raiseError` is all of it. -/

namespace Sys2Proof.Machine

/-- The input port `enc_d` settles at `d` (70_reset_and_hazards.md R106, R110). -/
def State.driveEnc (s : State) (d : DataWord) : State := { s with encD := some d }

/-- The input port `dec_r` settles at `r` (70_reset_and_hazards.md R106, R110). -/
def State.driveDec (s : State) (r : Codeword) : State := { s with decR := some r }

/-- `result <- v` (00_scope.md R11). -/
def State.putResult (s : State) (r : Word) : State := { s with res := some r }

/-- The next transaction is taken, leaving `rest`; it has no result word yet (30_encoding.md R49). -/
def State.take (s : State) (rest : List Request) : State := { s with pending := rest, res := none }

/-- The list a request passes to the host adapter, if it passes one (60_exceptions.md R104). A sequence
that is no list passes none (DEDUCED, notes/assumptions/14.md). -/
def Request.passedList : Request → Option (List Elem)
  | .call _ (.list l) => some l
  | .call _ (.str _) => none
  | .call _ (.otherSeq _) => none
  | .call _ (.nonSeq _) => none
  | .cmd _ => none

/-- What the host's own list holds after the call: a draw, whatever the call and its outcome; nothing
where no list was passed (60_exceptions.md R104). -/
def State.hostCopy (s : State) (req : Request) : Option (List Elem) :=
  match req.passedList with
  | some _ => some (Config.freeHostList s.draws)
  | none => none

/-- How many draws a request takes: one for a list passed. -/
def Request.drawCount (req : Request) : Nat :=
  match req.passedList with
  | some _ => 1
  | none => 0

/-- Closes a transaction with its one outcome (30_encoding.md R45): the outcome is recorded, a refusal
sets the mark, and the host's own copy of a list is drawn. -/
def State.complete (s : State) (req : Request) (o : TxOutcome) : State :=
  { s with
    completed := s.completed ++ [⟨req, o, s.hostCopy req⟩]
    refusalMark := markAfter s.refusalMark o
    draws := s.draws + req.drawCount }

/-- `raise` (00_scope.md R11): the transaction ends with the error record, the core is not reached,
and there is no result word (60_exceptions.md R88, R90). -/
def State.raiseError (s : State) (req : Request) (e : ErrorRecord) : State :=
  s.complete req (.error e)

/-- `refuse` (00_scope.md R11): no meaning and no result word, and the mark is set for the rest of the
run (30_encoding.md R53). -/
def State.refuse (s : State) (req : Request) (r : RefuseReason) : State :=
  s.complete req (.refused r)

end Sys2Proof.Machine
end

