-- ==== Sys2Proof/Machine/Operands.lean ====
section
/-! DEFINITION. Operands: the bits of packed words by index and position, packing, and the
operators of 00_scope.md R10. -/

namespace Sys2Proof.Machine

/-- `di`, the bit of a packed data word at index `i` in 0..3 (20_memory.md R31, R33). -/
def dataBit (d : DataWord) (i : Nat) : Bit := decide (i < 4) && d.getLsbD (3 - i)

/-- `cp`, the bit of a packed codeword at position `p` in 1..7 (20_memory.md R32, R34). -/
def codeBit (c : Codeword) (p : Nat) : Bit :=
  decide (1 ≤ p) && (decide (p ≤ 7) && c.getLsbD (7 - p))

/-- Packs `(d0, d1, d2, d3)` with `d0` in the most significant bit (20_memory.md R33). -/
def packData (d0 d1 d2 d3 : Bit) : DataWord := BitVec.ofBoolListBE [d0, d1, d2, d3]

/-- Packs `(c1, ..., c7)` with `c1` in the most significant bit (20_memory.md R34). -/
def packCode (c1 c2 c3 c4 c5 c6 c7 : Bit) : Codeword :=
  BitVec.ofBoolListBE [c1, c2, c3, c4, c5, c6, c7]

/-- The data word as the sequence `[d0, d1, d2, d3]` (00_scope.md R8). -/
def dataBits (d : DataWord) : List Bit := [dataBit d 0, dataBit d 1, dataBit d 2, dataBit d 3]

/-- The codeword as the sequence `[c1, ..., c7]` (00_scope.md R9). -/
def codeBits (c : Codeword) : List Bit :=
  [codeBit c 1, codeBit c 2, codeBit c 3, codeBit c 4, codeBit c 5, codeBit c 6, codeBit c 7]

/-- `zext_8` (00_scope.md R10). -/
def zext8 {n : Nat} (v : BitVec n) : Word := v.setWidth 8

/-- `bin3(p)`, the 3-bit representation of `p` in 0..7 (00_scope.md R10). -/
def bin3 (p : Nat) : Syndrome := BitVec.ofNat 3 p

/-- `val3(s) = 4·s[2] + 2·s[1] + s[0]` (00_scope.md R10). -/
def val3 (s : Syndrome) : Nat :=
  4 * (s.getLsbD 2).toNat + 2 * (s.getLsbD 1).toNat + (s.getLsbD 0).toNat

/-- The exclusive-or of all members; 0 for none (00_scope.md R10). -/
def xorAll : List Bit → Bit
  | [] => false
  | b :: bs => b ^^ xorAll bs

/-- The one-hot word with position `p` in 1..7 set; zero for any other `p`. -/
def oneHot (p : Nat) : Codeword :=
  packCode (p == 1) (p == 2) (p == 3) (p == 4) (p == 5) (p == 6) (p == 7)

/-- A codeword with the bit at position `p` inverted, as a channel does it; the channel itself is no
part of the block (00_scope.md R5 (f), 95_test_vectors.md section 3). At any other `p` nothing is
inverted (DESIGN CHOICE, notes/assumptions/15.md). -/
def flipAt (c : Codeword) (p : Nat) : Codeword := c ^^^ oneHot p

/-- A codeword with an error at each of the listed positions. -/
def flipAll (c : Codeword) (ps : List Nat) : Codeword := ps.foldl flipAt c

end Sys2Proof.Machine
end

