-- ==== Sys2Proof/Machine/Positions.lean ====
section
/-! DEFINITION. The constant tables of the shared bit-position convention (10_state.md R25 to R27).
They are constants: no call changes them (R17). -/

namespace Sys2Proof.Machine

/-- The codeword positions 1..7 in order (00_scope.md R9). -/
def positions : List Nat := [1, 2, 3, 4, 5, 6, 7]

/-- `PARITY_POS`, the powers of two (10_state.md R25). -/
def parityPos : List Nat := [1, 2, 4]

/-- `DATA_POS`, in order (10_state.md R25, R27). -/
def dataPos : List Nat := [3, 5, 6, 7]

/-- The codeword position of the data bit `di` (10_state.md R27); 0, no position, past the table. -/
def dataPosAt (i : Nat) : Nat := dataPos.getD i 0

/-- `Cov(2^k)`, the positions whose binary representation has bit `k` set (10_state.md R26). -/
def coverage (k : Nat) : List Nat := positions.filter fun p => (bin3 p).getLsbD k

end Sys2Proof.Machine
end

