-- ==== Sys2Proof/Machine/Decoder.lean ====
section
/-! DEFINITION. The decoder unit DEC: syndrome recompute, error-position decoder, single-bit corrector,
data extractor, the operation DECODE (41_decoder.md), with the source's accumulating procedure for the
syndrome beside its XOR trees. -/

namespace Sys2Proof.Machine

/-- The internal nets of DEC (10_state.md R24). -/
structure DecNets where
  /-- The syndrome `s[2:0]`. -/
  syn : Syndrome
  /-- The error position `e = val3(s)`. -/
  err : Nat
  /-- The one-hot flip mask, `f1` in the most significant bit. -/
  flip : Codeword
  /-- The corrected word `r'`. -/
  corrected : Codeword
deriving DecidableEq, Repr

/-- `s[0]`, the tree over `Cov(1)` (41_decoder.md R69). -/
def syndrome0 (r : Codeword) : Bit := codeBit r 1 ^^ codeBit r 3 ^^ codeBit r 5 ^^ codeBit r 7

/-- `s[1]`, the tree over `Cov(2)` (41_decoder.md R69). -/
def syndrome1 (r : Codeword) : Bit := codeBit r 2 ^^ codeBit r 3 ^^ codeBit r 6 ^^ codeBit r 7

/-- `s[2]`, the tree over `Cov(4)` (41_decoder.md R69). -/
def syndrome2 (r : Codeword) : Bit := codeBit r 4 ^^ codeBit r 5 ^^ codeBit r 6 ^^ codeBit r 7

/-- The syndrome (41_decoder.md R69). -/
def syndrome (r : Codeword) : Syndrome :=
  BitVec.ofBoolListBE [syndrome2 r, syndrome1 r, syndrome0 r]

/-- One turn of the source's accumulation: a set bit at position `p` XORs `bin3(p)` into the
accumulator (41_decoder.md R68). -/
def accumulate (r : Codeword) (acc : Syndrome) (p : Nat) : Syndrome :=
  if codeBit r p then acc ^^^ bin3 p else acc

/-- The accumulation over the positions in a given order, from 000 (41_decoder.md R68). -/
def syndromeByAccumulation (r : Codeword) (order : List Nat) : Syndrome :=
  order.foldl (accumulate r) 0#3

/-- The error position `e` (41_decoder.md R70). -/
def errorPosition (s : Syndrome) : Nat := val3 s

/-- The flip mask: `f(p)` is 1 exactly when `e = p` (41_decoder.md R70). -/
def flipMask (e : Nat) : Codeword := oneHot e

/-- The corrector: `r'(p) = r(p) ⊕ f(p)` on the corrected-word net (41_decoder.md R71). -/
def correct (r f : Codeword) : Codeword := r ^^^ f

/-- The extractor: `(r'3, r'5, r'6, r'7)` (41_decoder.md R72). -/
def extract (r' : Codeword) : DataWord :=
  packData (codeBit r' 3) (codeBit r' 5) (codeBit r' 6) (codeBit r' 7)

/-- The nets of DEC for a received word (10_state.md R24). -/
def decNets (r : Codeword) : DecNets :=
  let s := syndrome r
  let e := errorPosition s
  let f := flipMask e
  ⟨s, e, f, correct r f⟩

/-- `DECODE_FN` up to its zero extension: the data word at `dec_q`, for every received word by the same
rules, whatever the number of errors (41_decoder.md R73, R74). -/
def decodeFn (r : Codeword) : DataWord := extract (decNets r).corrected

/-- The result word of DECODE: `RES[7:4] = 0000`, `RES[3:0] = Q` (41_decoder.md R73). -/
def decodeResult (r : Codeword) : Word := zext8 (decodeFn r)

/-- The nets of DEC once its input has settled (10_state.md R22, R24). -/
def State.decNets (s : State) : Option DecNets := s.decR.map Sys2Proof.Machine.decNets

/-- The output port `dec_q`: a function of the input port, with no value before any input has settled
(10_state.md R21, R22; 70_reset_and_hazards.md R106). -/
def State.decQ (s : State) : Option DataWord := s.decR.map decodeFn

/-- DECODE (41_decoder.md R73): DEC's input settles at the received word, and the result is the data
word at its output, zero-extended. No flag, no exception, nothing else (10_state.md R16,
20_memory.md R39). -/
def execDecode (c : Codeword) (s : State) : Host.Outcome State Fault Refusal :=
  .next ((s.driveDec c).putResult (decodeResult c))

end Sys2Proof.Machine
end

