-- ==== Sys2Proof/Machine/Encoder.lean ====
section
/-! DEFINITION. The encoder unit ENC: the parity XOR trees, the codeword interleaver, the operation
ENCODE (40_encoder.md), with the source's own toggling procedure and scanning procedure beside them. -/

namespace Sys2Proof.Machine

/-- The internal nets of ENC (10_state.md R23). -/
structure EncNets where
  p1 : Bit
  p2 : Bit
  p4 : Bit
deriving DecidableEq, Repr

/-- The parity tree for position 1 (40_encoder.md R60). -/
def parity1 (d : DataWord) : Bit := dataBit d 0 ^^ dataBit d 1 ^^ dataBit d 3

/-- The parity tree for position 2 (40_encoder.md R61). -/
def parity2 (d : DataWord) : Bit := dataBit d 0 ^^ dataBit d 2 ^^ dataBit d 3

/-- The parity tree for position 4 (40_encoder.md R62). -/
def parity4 (d : DataWord) : Bit := dataBit d 1 ^^ dataBit d 2 ^^ dataBit d 3

/-- The nets of ENC for a data word (10_state.md R23). -/
def encNets (d : DataWord) : EncNets := ⟨parity1 d, parity2 d, parity4 d⟩

/-- The interleaver: `(p1, p2, d0, p4, d1, d2, d3)` (40_encoder.md R63). -/
def interleave (n : EncNets) (d : DataWord) : Codeword :=
  packCode n.p1 n.p2 (dataBit d 0) n.p4 (dataBit d 1) (dataBit d 2) (dataBit d 3)

/-- `ENCODE_FN` up to its zero extension: the codeword at `enc_c` (40_encoder.md R64). -/
def encodeFn (d : DataWord) : Codeword := interleave (encNets d) d

/-- The result word of ENCODE: `RES[7] = 0`, `RES[6:0] = C` (40_encoder.md R64, 30_encoding.md R49). -/
def encodeResult (d : DataWord) : Word := zext8 (encodeFn d)

/-- The general parity rule in its set form: the exclusive-or of the data bits whose position has bit
`k` set (40_encoder.md R59). -/
def parityGeneral (d : DataWord) (k : Nat) : Bit :=
  xorAll (([0, 1, 2, 3].filter fun i => (bin3 (dataPosAt i)).getLsbD k).map (dataBit d))

/-- One turn of the source's toggling procedure: if the data bit at index `i` is 1, toggle every parity
bit whose coverage set includes that bit's position (40_encoder.md R59). -/
def toggleParity (d : DataWord) (n : EncNets) (i : Nat) : EncNets :=
  if dataBit d i then
    { p1 := n.p1 ^^ decide (dataPosAt i ∈ coverage 0)
      p2 := n.p2 ^^ decide (dataPosAt i ∈ coverage 1)
      p4 := n.p4 ^^ decide (dataPosAt i ∈ coverage 2) }
  else n

/-- The toggling procedure over the data indices in a given order, from 0 (40_encoder.md R59). -/
def parityByToggling (d : DataWord) (order : List Nat) : EncNets :=
  order.foldl (toggleParity d) ⟨false, false, false⟩

/-- The parity bit emitted at a parity position (40_encoder.md R63); 0 at any other. -/
def EncNets.at (n : EncNets) (p : Nat) : Bit :=
  if p = 1 then n.p1 else if p = 2 then n.p2 else if p = 4 then n.p4 else false

/-- The source's scan: "at a parity position, emit the corresponding parity bit; at a data position,
emit the next unused data bit in original order" (40_encoder.md R63). -/
def emitScan (n : EncNets) : List Nat → List Bit → List Bit
  | [], _ => []
  | p :: ps, unused =>
    if p ∈ parityPos then n.at p :: emitScan n ps unused
    else match unused with
      | [] => []
      | b :: bs => b :: emitScan n ps bs

/-- The nets of ENC once its input has settled (10_state.md R22, R23). -/
def State.encNets (s : State) : Option EncNets := s.encD.map Sys2Proof.Machine.encNets

/-- The output port `enc_c`: a function of the input port, with no value before any input has settled
(10_state.md R20, R22; 70_reset_and_hazards.md R106). -/
def State.encC (s : State) : Option Codeword := s.encD.map encodeFn

/-- ENCODE (40_encoder.md R64): ENC's input settles at the data word, and the result is the codeword at
its output, zero-extended. No flag, no exception, nothing else (10_state.md R16, 20_memory.md R39). -/
def execEncode (d : DataWord) (s : State) : Host.Outcome State Fault Refusal :=
  .next ((s.driveEnc d).putResult (encodeResult d))

end Sys2Proof.Machine
end

