-- ==== Sys2Proof/Machine/HostAdapter.lean ====
section
/-! DEFINITION. The host adapter: validation of a host value, its packing into a command word, and the
unpacking of the result word (60_exceptions.md R82 to R87). -/

namespace Sys2Proof.Machine

/-- What validation answers (60_exceptions.md R84, R85). -/
inductive Verdict where
  /-- A validation error. -/
  | raise (c : Cause)
  /-- A refusal. -/
  | refuse (r : RefuseReason)
  /-- The value passes, as this command word. -/
  | pass (w : Word)
deriving DecidableEq, Repr

/-- The kind of a cause (60_exceptions.md R86). -/
def Cause.kind : Cause → ErrorKind
  | .notList => .typeKind
  | .notBinary => .valueKind
  | .encLength => .valueKind
  | .decLength => .valueKind

/-- The code of a cause (60_exceptions.md R86). -/
def Cause.code : Cause → Nat
  | .notList => 1
  | .notBinary => 2
  | .encLength => 3
  | .decLength => 4

/-- The literal message of a cause, with its final period (60_exceptions.md R86, 90_conflicts.md C3). -/
def Cause.message : Cause → String
  | .notList => "Input is not a list."
  | .notBinary => "Input is not binary."
  | .encLength => "Input does not contain 4-bits."
  | .decLength => "Input list does not contain 7 digits."

/-- The error record of a cause (60_exceptions.md R88, R89). -/
def Cause.record (c : Cause) : ErrorRecord := ⟨c.kind, c.code, c.message⟩

/-- An element that is an integer other than 0 and 1 (60_exceptions.md R84). -/
def isNonBinaryInt : Elem → Bool
  | .int n => !(n == 0 || n == 1)
  | .nonInt _ => false

/-- An element that is no integer (60_exceptions.md R83). -/
def isNonInt : Elem → Bool
  | .int _ => false
  | .nonInt _ => true

/-- The bit of an element that has passed the element checks. -/
def elemBit : Elem → Bit
  | .int n => n == 1
  | .nonInt _ => false

/-- A list of bits as a host value, the integer 1 for a bit that is 1. -/
def hostBits (bs : List Bit) : HostValue := .list (bs.map fun b => .int b.toInt)

/-- The length check of ENCODE and its command word `0000 a0 a1 a2 a3` (60_exceptions.md R84). -/
def encodeWordOf : List Bit → Verdict
  | [a0, a1, a2, a3] => .pass (BitVec.ofBoolListBE [false, false, false, false, a0, a1, a2, a3])
  | _ => .raise .encLength

/-- The length check of DECODE and its command word `1 a0 a1 a2 a3 a4 a5 a6` (60_exceptions.md R85). -/
def decodeWordOf : List Bit → Verdict
  | [a0, a1, a2, a3, a4, a5, a6] =>
    .pass (BitVec.ofBoolListBE [true, a0, a1, a2, a3, a4, a5, a6])
  | _ => .raise .decLength

/-- The element checks, then the length check: a non-binary integer anywhere first, then an element
that is no integer, then the length (60_exceptions.md R84, R85, R87). -/
def validateList (wordOf : List Bit → Verdict) (l : List Elem) : Verdict :=
  if l.any isNonBinaryInt then .raise .notBinary
  else if l.any isNonInt then .refuse .nonIntegerElement
  else wordOf (l.map elemBit)

/-- The shape check, then the checks of a list (60_exceptions.md R84, R85, R87). -/
def validateShape (wordOf : List Bit → Verdict) : HostValue → Verdict
  | .str _ => .raise .notList
  | .nonSeq _ => .raise .notList
  | .otherSeq _ => .refuse .nonListSequence
  | .list l => validateList wordOf l

/-- The validation of an operand of ENCODE (60_exceptions.md R84). -/
def validateEncode (v : HostValue) : Verdict := validateShape encodeWordOf v

/-- The validation of an operand of DECODE (60_exceptions.md R85). -/
def validateDecode (v : HostValue) : Verdict := validateShape decodeWordOf v

/-- The validation of a host call. -/
def validate : Op → HostValue → Verdict
  | .encode, v => validateEncode v
  | .decode, v => validateDecode v

/-- The list a host call returns: `[RES[6], ..., RES[0]]` for ENCODE, `[RES[3], ..., RES[0]]` for DECODE
(60_exceptions.md R84, R85). -/
def unpackResult : Op → Word → List Bit
  | .encode, r => [r.getLsbD 6, r.getLsbD 5, r.getLsbD 4, r.getLsbD 3, r.getLsbD 2, r.getLsbD 1,
      r.getLsbD 0]
  | .decode, r => [r.getLsbD 3, r.getLsbD 2, r.getLsbD 1, r.getLsbD 0]

/-- The outcome of a transaction whose result word is `r`: the word itself for a raw command word, the
unpacked list for a host call (60_exceptions.md R82). -/
def Request.succeed : Request → Word → TxOutcome
  | .cmd _, r => .result r
  | .call op _, r => .values (unpackResult op r)

end Sys2Proof.Machine
end

