-- ==== Sys2Proof/Machine/Transaction.lean ====
section
/-! DEFINITION. A transaction from its operand to its one outcome, as one indivisible step
(20_memory.md R38; 30_encoding.md R45; 60_exceptions.md R82, R84, R85, R88). -/

namespace Sys2Proof.Machine

/-- Closes a transaction whose instruction has been performed: its outcome is made of its result word
(60_exceptions.md R82). The fault is never reached (DESIGN CHOICE, notes/assumptions/11.md). -/
def finish (req : Request) :
    Host.Outcome State Fault Refusal → Host.Outcome State Fault Refusal
  | .next s =>
    match s.res with
    | some r => .next (s.complete req (req.succeed r))
    | none => .fault .noResultWord
  | .fault f => .fault f
  | .refused r => .refused r

/-- A command word reaches the core: it is decoded and performed, or refused where it is reserved
(30_encoding.md R51, R53). A refusal is an outcome and the run goes on (95_test_vectors.md P5;
DEDUCED, notes/assumptions/2.md). -/
def runCommand (req : Request) (w : Word) (s : State) : Host.Outcome State Fault Refusal :=
  match decodeCmd w with
  | .ok i => finish req (exec i s)
  | .error .reservedEncodeBits => .next (s.refuse req .reservedEncodeBits)

/-- The outcome of a host call's validation: the command word goes to the core, or the transaction ends
with no command word formed (60_exceptions.md R84, R85, R88). -/
def followVerdict (req : Request) (s : State) : Verdict → Host.Outcome State Fault Refusal
  | .raise c => .next (s.raiseError req c.record)
  | .refuse r => .next (s.refuse req r)
  | .pass w => runCommand req w s

/-- One transaction (30_encoding.md R45). -/
def perform (req : Request) (s : State) : Host.Outcome State Fault Refusal :=
  match req with
  | .cmd w => runCommand req w s
  | .call op v => followVerdict req s (validate op v)

end Sys2Proof.Machine
end

