-- ==== Sys2Proof/Machine/Step.lean ====
section
/-! DEFINITION. One step of a run: the next transaction the host has issued, performed whole. -/

namespace Sys2Proof.Machine

/-- One step: the next pending transaction is taken and performed as one atomic step
(20_memory.md R38, 60_exceptions.md R98). With none pending the run is at its end: the block stays as
it is, since it has no halt and no state to change (70_reset_and_hazards.md R112;
DESIGN CHOICE, notes/assumptions/3.md). -/
def step (s : State) : Host.Outcome State Fault Refusal :=
  match s.pending with
  | [] => .next s
  | req :: rest => perform req (s.take rest)

/-- The state with the command word whose `nbits` table bits are `w` issued as the next transaction, as
a host issues it: HAM74 fetches nothing (10_state.md R15; DESIGN CHOICE, notes/assumptions/1.md). A
command word is exactly 8 bits (30_encoding.md R54): of more than 8 table bits, which the spec does not
have, only the low 8 are issued, where `decodeTableWord` gives none (DESIGN CHOICE,
notes/assumptions/12.md). -/
def State.withFetchWord (s : State) (nbits w : Nat) : State :=
  { s with pending := .cmd (BitVec.ofNat 8 (w % 2 ^ nbits)) :: s.pending }

end Sys2Proof.Machine
end

