-- ==== Sys2Proof/Machine/Assembler.lean ====
section
/-! DEFINITION. The assembler syntax: statements to command words and back, and the text of a statement
(30_encoding.md R55 to R57). A statement is a `Request`; there are no pseudo-instructions (R57).

R55 fixes the shape of the text. Blanks, the comma's blank, the `;` comment of 95_test_vectors.md
section 3 and the written forms of values that are not lists are a DESIGN CHOICE,
notes/assumptions/7.md. -/

namespace Sys2Proof.Machine

/-- The command word of a statement; none where its operand fails validation (30_encoding.md R55,
R56). -/
def assemble : Request → Option Word
  | .cmd w => some w
  | .call op v =>
    match validate op v with
    | .pass w => some w
    | .raise _ => none
    | .refuse _ => none

/-- The statement of a command word; a reserved word is `cmd 0xNN` (30_encoding.md R56). -/
def disassemble (w : Word) : Request :=
  match decodeCmd w with
  | .ok (.encode d) => .call .encode (hostBits (dataBits d))
  | .ok (.decode c) => .call .decode (hostBits (codeBits c))
  | .error .reservedEncodeBits => .cmd w

/-- The mnemonic of an operation, in lower case (30_encoding.md R55). -/
def Op.mnemonic : Op → List Char
  | .encode => ['e', 'n', 'c', 'o', 'd', 'e']
  | .decode => ['d', 'e', 'c', 'o', 'd', 'e']

/-- A hexadecimal digit, in upper case. -/
def hexDigit (n : Nat) : Char :=
  (['0', '1', '2', '3', '4', '5', '6', '7', '8', '9', 'A', 'B', 'C', 'D', 'E', 'F']).getD n '0'

/-- The text of a list element. -/
def elemText : Elem → List Char
  | .int n => (toString n).toList
  | .nonInt x => x.toList

/-- List elements separated by commas (30_encoding.md R55). -/
def elemsText : List Elem → List Char
  | [] => []
  | [e] => elemText e
  | e :: f :: es => elemText e ++ (',' :: ' ' :: elemsText (f :: es))

/-- The text of a host value. -/
def valueText : HostValue → List Char
  | .list l => '[' :: (elemsText l ++ [']'])
  | .str x => '"' :: (x.toList ++ ['"'])
  | .otherSeq x => x.toList
  | .nonSeq x => x.toList

/-- The text of a statement (30_encoding.md R55). -/
def statementText : Request → List Char
  | .call op v => op.mnemonic ++ (' ' :: valueText v)
  | .cmd w => ['c', 'm', 'd', ' ', '0', 'x', hexDigit (w.toNat / 16), hexDigit (w.toNat % 16)]

/-- A blank between the parts of a statement. -/
def isBlank (c : Char) : Bool := c == ' ' || c == '\t'

/-- A text without the blanks at its two ends. -/
def trimBlanks (cs : List Char) : List Char :=
  ((cs.dropWhile isBlank).reverse.dropWhile isBlank).reverse

/-- A text without its `;` comment; a `;` between double quotes begins none. -/
def dropComment (quoted : Bool) : List Char → List Char
  | [] => []
  | c :: cs =>
    if c == ';' && !quoted then []
    else c :: dropComment (if c == '"' then !quoted else quoted) cs

/-- The rest of a text that begins with a given one. -/
def afterPrefix : List Char → List Char → Option (List Char)
  | [], cs => some cs
  | _ :: _, [] => none
  | p :: ps, c :: cs => if p == c then afterPrefix ps cs else none

/-- The value of a digit below `base`, base at most 16. -/
def digitValue (base : Nat) (c : Char) : Option Nat :=
  let n := if c.isDigit then c.toNat - '0'.toNat
    else if 'A' ≤ c && c ≤ 'F' then c.toNat - 'A'.toNat + 10
    else if 'a' ≤ c && c ≤ 'f' then c.toNat - 'a'.toNat + 10
    else 16
  if n < base then some n else none

/-- Reads digits onto an accumulator; none where a character is no digit. -/
def readDigits (base : Nat) : Nat → List Char → Option Nat
  | acc, [] => some acc
  | acc, c :: cs =>
    match digitValue base c with
    | some n => readDigits base (acc * base + n) cs
    | none => none

/-- Reads a numeral of at least one digit. -/
def readNat (base : Nat) : List Char → Option Nat
  | [] => none
  | c :: cs => readDigits base 0 (c :: cs)

/-- Reads a list element: a decimal integer with an optional minus sign, else a value that is no
integer. -/
def readElem (cs : List Char) : Elem :=
  match cs with
  | '-' :: ds =>
    match readNat 10 ds with
    | some n => .int (-(n : Int))
    | none => .nonInt (String.ofList cs)
  | _ =>
    match readNat 10 cs with
    | some n => .int (n : Int)
    | none => .nonInt (String.ofList cs)

/-- The parts of a text between its commas. -/
def splitCommas : List Char → List (List Char)
  | [] => [[]]
  | c :: cs =>
    if c == ',' then [] :: splitCommas cs
    else match splitCommas cs with
      | [] => [[c]]
      | w :: ws => (c :: w) :: ws

/-- Reads the elements of a list; none where one is missing. -/
def readElems (body : List Char) : Option (List Elem) :=
  if (trimBlanks body).isEmpty then some []
  else
    let parts := (splitCommas body).map trimBlanks
    if parts.any List.isEmpty then none else some (parts.map readElem)

/-- Reads a host value (00_scope.md R12, 30_encoding.md R55, 95_test_vectors.md V18). -/
def readValue (cs : List Char) : Option HostValue :=
  match cs with
  | [] => none
  | '[' :: rest =>
    match rest.reverse with
    | ']' :: body => (readElems body.reverse).map .list
    | _ => none
  | '"' :: rest =>
    match rest.reverse with
    | '"' :: body => some (.str (String.ofList body.reverse))
    | _ => none
  | '(' :: rest =>
    match rest.reverse with
    | ')' :: _ => some (.otherSeq (String.ofList cs))
    | _ => none
  | _ => some (.nonSeq (String.ofList cs))

/-- Reads the operand after a mnemonic, which a blank must follow. -/
def readOperand (op : Op) (cs : List Char) : Option Request :=
  match cs with
  | [] => none
  | c :: rest => if isBlank c then (readValue (trimBlanks rest)).map (.call op) else none

/-- Reads the raw word after `cmd`: `0x` and two hexadecimal digits. -/
def readCmd (cs : List Char) : Option Request :=
  match cs with
  | [] => none
  | c :: rest =>
    if isBlank c then
      match trimBlanks rest with
      | ['0', 'x', h, l] => (readNat 16 [h, l]).map fun n => .cmd (BitVec.ofNat 8 n)
      | _ => none
    else none

/-- Reads one statement (30_encoding.md R55); none where the text is no statement. -/
def parseStatement (text : List Char) : Option Request :=
  let cs := trimBlanks (dropComment false text)
  match afterPrefix Op.encode.mnemonic cs with
  | some rest => readOperand .encode rest
  | none =>
    match afterPrefix Op.decode.mnemonic cs with
    | some rest => readOperand .decode rest
    | none =>
      match afterPrefix ['c', 'm', 'd'] cs with
      | some rest => readCmd rest
      | none => none

end Sys2Proof.Machine
end

