-- ==== Sys2Proof/Machine/Denotation.lean ====
section
/-! DEFINITION. What a transaction answers, as a function of the transaction alone: "The outputs of a
transaction are a function of that transaction's inputs alone" (10_state.md R13). The machine does not
use it; statements compare the machine with it. -/

namespace Sys2Proof.Machine

/-- The result word of an instruction (30_encoding.md R49). -/
def resultOf : Instr → Word
  | .encode d => encodeResult d
  | .decode c => decodeResult c

/-- The outcome of a request whose command word is `w` (30_encoding.md R51, R53). -/
def wordOutcome (req : Request) (w : Word) : TxOutcome :=
  match decodeCmd w with
  | .ok i => req.succeed (resultOf i)
  | .error .reservedEncodeBits => .refused .reservedEncodeBits

/-- The outcome of a transaction (30_encoding.md R45; 60_exceptions.md R84, R85). -/
def outcomeOf : Request → TxOutcome
  | .cmd w => wordOutcome (.cmd w) w
  | .call op v =>
    match validate op v with
    | .raise c => .error c.record
    | .refuse r => .refused r
    | .pass w => wordOutcome (.call op v) w

end Sys2Proof.Machine
end

