-- ==== Sys2Proof/Safety.lean ====
section
/-! DEFINITION. What a safe run is, and the invariant of the model's state. -/

namespace Sys2Proof.Machine

/-- Every transaction of the run so far succeeded. A run with a refusal in it, or with an error,
satisfies no such claim (30_encoding.md R53). -/
def State.everySucceeded (s : State) : Bool :=
  !s.refusalMark && s.completed.all fun c => c.outcome.isSuccess

/-- Whether the latest transaction performed ended in a result; false before any. -/
def State.lastSucceeded (s : State) : Bool :=
  match s.completed.getLast? with
  | some c => c.outcome.isSuccess
  | none => false

/-- The step ends the transaction `req`, the next one pending, with the outcome `o` and without reaching
the core: both ports are as they were, there is no result word, and only the record, the refusal mark
and the model's draws change (60_exceptions.md R88, R90; 30_encoding.md R53). -/
def State.EndsWithoutCore (s : State) (rest : List Request) (req : Request) (o : TxOutcome) : Prop :=
  ∃ t copy, step s = .next t ∧ t.pending = rest ∧ t.res = none ∧ t.encD = s.encD ∧ t.decR = s.decR ∧
    t.completed = s.completed ++ [⟨req, o, copy⟩] ∧
    t.refusalMark = (s.refusalMark || o.isRefused)

/-- The invariant of a run's state. -/
structure State.Inv (s : State) : Prop where
  /-- The refusal mark is set exactly when some transaction was refused (30_encoding.md R53). -/
  mark_agrees : s.refusalMark = s.completed.any fun c => c.outcome.isRefused
  /-- Every recorded outcome is the one its transaction alone determines (10_state.md R13). -/
  outcomes_agree : ∀ c ∈ s.completed, c.outcome = outcomeOf c.request
  /-- A host's own copy is drawn exactly for the calls that passed a list (60_exceptions.md R104). -/
  copies_agree : ∀ c ∈ s.completed, c.hostCopy.isSome = c.request.passedList.isSome
  /-- A result word is there exactly when the latest transaction succeeded (30_encoding.md R49). -/
  result_agrees : s.res.isSome = s.lastSucceeded
  /-- A result word is a unit's output, zero-extended (30_encoding.md R49, 10_state.md R22). -/
  result_is_output : ∀ r, s.res = some r → s.encC.map zext8 = some r ∨ s.decQ.map zext8 = some r

end Sys2Proof.Machine
end

