-- ==== Sys2Proof/Certificates/Slice0/Obligations.lean ====
section
/-! DEFINITION. The statements for the provers, in the order of OBLIGATIONS.json. -/

open Sys2Proof Sys2Proof.Machine

/-! ## The block after power-up, its ports and tables -/

/-- What `State.reset` holds. That no port or net has a value before an input settles is
70_reset_and_hazards.md R106, and that the block has no reset and no reset value is R105 and 10_state.md
R28. The clauses `res = none`, `pending = []`, `completed = []` and the clear mark are the model's own
deduction (DEDUCED, notes/assumptions/10.md, and notes/assumptions/1.md for nothing pending), from
95_test_vectors.md section 3 ("Start state of every program"). The model's draw counter is left out. -/
def Obligations.ResetShowsNothing : Prop :=
  State.reset.encD = none ∧ State.reset.decR = none ∧
  State.reset.encC = none ∧ State.reset.decQ = none ∧
  State.reset.encNets = none ∧ State.reset.decNets = none ∧
  State.reset.res = none ∧ State.reset.pending = [] ∧ State.reset.completed = [] ∧
  State.reset.refusalMark = false

/-- 10_state.md R22: each output port is a function of its own unit's input port. -/
def Obligations.OutputPortsFollowInputPorts : Prop :=
  (∀ (s : State) (d : DataWord), s.encD = some d → s.encC = some (encodeFn d)) ∧
  (∀ (s : State) (r : Codeword), s.decR = some r → s.decQ = some (decodeFn r)) ∧
  (∀ s t : State, s.encD = t.encD → s.encC = t.encC ∧ s.encNets = t.encNets) ∧
  (∀ s t : State, s.decR = t.decR → s.decQ = t.decQ ∧ s.decNets = t.decNets) ∧
  (∀ s : State, s.encD = none → s.encC = none) ∧ (∀ s : State, s.decR = none → s.decQ = none)

/-- 10_state.md R26: the coverage sets, by their definition and by their table. -/
def Obligations.CoverageSetsAreTheTable : Prop :=
  coverage 0 = [1, 3, 5, 7] ∧ coverage 1 = [2, 3, 6, 7] ∧ coverage 2 = [4, 5, 6, 7] ∧
  (∀ k < 3, ∀ p, p ∈ coverage k ↔ p ∈ positions ∧ (p / 2 ^ k) % 2 = 1) ∧
  (∀ k < 3, ∀ q ∈ parityPos, q ∈ coverage k ↔ q = 2 ^ k) ∧
  (coverage 0).filter (· ∈ dataPos) = [3, 5, 7] ∧ (coverage 1).filter (· ∈ dataPos) = [3, 6, 7] ∧
  (coverage 2).filter (· ∈ dataPos) = [5, 6, 7] ∧
  [0, 1, 2, 3].filter (fun i => dataPosAt i ∈ coverage 0) = [0, 1, 3] ∧
  [0, 1, 2, 3].filter (fun i => dataPosAt i ∈ coverage 1) = [0, 2, 3] ∧
  [0, 1, 2, 3].filter (fun i => dataPosAt i ∈ coverage 2) = [1, 2, 3]

/-- 20_memory.md R33, R34: the packing of data words and codewords. -/
def Obligations.PackedWordsKeepBitOrder : Prop :=
  (∀ d0 d1 d2 d3 : Bit,
    dataBits (packData d0 d1 d2 d3) = [d0, d1, d2, d3] ∧
    (packData d0 d1 d2 d3).getLsbD 3 = d0 ∧ (packData d0 d1 d2 d3).getLsbD 2 = d1 ∧
    (packData d0 d1 d2 d3).getLsbD 1 = d2 ∧ (packData d0 d1 d2 d3).getLsbD 0 = d3 ∧
    (packData d0 d1 d2 d3).toNat = 8 * d0.toNat + 4 * d1.toNat + 2 * d2.toNat + d3.toNat) ∧
  (∀ c1 c2 c3 c4 c5 c6 c7 : Bit,
    codeBits (packCode c1 c2 c3 c4 c5 c6 c7) = [c1, c2, c3, c4, c5, c6, c7] ∧
    (∀ p, 1 ≤ p → p ≤ 7 →
      codeBit (packCode c1 c2 c3 c4 c5 c6 c7) p =
        (packCode c1 c2 c3 c4 c5 c6 c7).getLsbD (7 - p)) ∧
    (packCode c1 c2 c3 c4 c5 c6 c7).toNat = 64 * c1.toNat + 32 * c2.toNat + 16 * c3.toNat +
      8 * c4.toNat + 4 * c5.toNat + 2 * c6.toNat + c7.toNat) ∧
  packCode true true true false false false false = 0x70#7

/-! ## ENCODE -/

/-- 40_encoder.md R59 to R62: the parity nets are the general rule's bits, and the source's toggling
procedure gives them in whatever order it visits the data bits. -/
def Obligations.ParityTreesMeetTheGeneralRule : Prop :=
  ∀ d : DataWord,
    (encNets d).p1 = parityGeneral d 0 ∧ (encNets d).p2 = parityGeneral d 1 ∧
    (encNets d).p4 = parityGeneral d 2 ∧
    (encNets d).p1 = (dataBit d 0 ^^ dataBit d 1 ^^ dataBit d 3) ∧
    (encNets d).p2 = (dataBit d 0 ^^ dataBit d 2 ^^ dataBit d 3) ∧
    (encNets d).p4 = (dataBit d 1 ^^ dataBit d 2 ^^ dataBit d 3) ∧
    ∀ order : List Nat, order.Perm [0, 1, 2, 3] → parityByToggling d order = encNets d

/-- 40_encoder.md R63: the interleaver is the source's scan of positions 1..7. -/
def Obligations.InterleaverIsTheScan : Prop :=
  ∀ (n : EncNets) (d : DataWord),
    codeBits (interleave n d) = emitScan n positions (dataBits d) ∧
    codeBits (interleave n d) =
      [n.p1, n.p2, dataBit d 0, n.p4, dataBit d 1, dataBit d 2, dataBit d 3] ∧
    (interleave n d).getLsbD 6 = n.p1 ∧ (interleave n d).getLsbD 0 = dataBit d 3

/-- 40_encoder.md R64: ENCODE completes in every state, for every data word, with the result the rule's
pseudocode gives and nothing else changed; its encoding and its corner cases. -/
def Obligations.EncodeExecutes : Prop :=
  (∀ (d : DataWord) (s : State),
    decodeCmd (0#4 ++ d) = .ok (.encode d) ∧ (0#4 ++ d) &&& 0xF0#8 = 0x00#8 ∧
    exec (.encode d) s = .next { s with
      encD := some d
      res := some (BitVec.ofBoolListBE [false,
        d.getLsbD 3 ^^ d.getLsbD 2 ^^ d.getLsbD 0,
        d.getLsbD 3 ^^ d.getLsbD 1 ^^ d.getLsbD 0,
        d.getLsbD 3,
        d.getLsbD 2 ^^ d.getLsbD 1 ^^ d.getLsbD 0,
        d.getLsbD 2, d.getLsbD 1, d.getLsbD 0]) }) ∧
  ∀ (s : State) (x : DataWord × Word),
    x ∈ [(0x0#4, 0x00#8), (0xF#4, 0x7F#8), (0x8#4, 0x70#8), (0x4#4, 0x4C#8), (0x2#4, 0x2A#8),
      (0x1#4, 0x69#8)] →
    exec (.encode x.1) s = .next { s with encD := some x.1, res := some x.2 }

/-- 40_encoder.md R65: the codeword at `enc_c` has even parity over each coverage set, so each parity
position is the exclusive-or of the data positions in its set. -/
def Obligations.CodewordHasEvenParity : Prop :=
  ∀ (d : DataWord) (s : State), ∃ t c, exec (.encode d) s = .next t ∧ t.encC = some c ∧
    xorAll ([1, 3, 5, 7].map (codeBit c)) = false ∧
    xorAll ([2, 3, 6, 7].map (codeBit c)) = false ∧
    xorAll ([4, 5, 6, 7].map (codeBit c)) = false ∧
    (∀ k < 3, xorAll ((coverage k).map (codeBit c)) = false) ∧
    ∀ k < 3, codeBit c (2 ^ k) = xorAll (((coverage k).filter (· ∈ dataPos)).map (codeBit c))

/-- 40_encoder.md R66: positions 3, 5, 6, 7 carry the data bits unchanged, in order. -/
def Obligations.CodewordCarriesTheData : Prop :=
  ∀ (d : DataWord) (s : State), ∃ t c, exec (.encode d) s = .next t ∧ t.encC = some c ∧
    codeBit c 3 = dataBit d 0 ∧ codeBit c 5 = dataBit d 1 ∧ codeBit c 6 = dataBit d 2 ∧
    codeBit c 7 = dataBit d 3

/-- 40_encoder.md R67: ENCODE is linear and injective, and its images are exactly the words of even
parity. -/
def Obligations.EncodeIsLinearAndInjective : Prop :=
  (∀ s : State, ∃ t, exec (.encode 0#4) s = .next t ∧ t.encC = some 0#7) ∧
  (∀ (s : State) (a b : DataWord), ∃ ta tb tab ca cb,
    exec (.encode a) s = .next ta ∧ exec (.encode b) s = .next tb ∧
    exec (.encode (a ^^^ b)) s = .next tab ∧
    ta.encC = some ca ∧ tb.encC = some cb ∧ tab.encC = some (ca ^^^ cb) ∧ (ca = cb → a = b)) ∧
  ∀ (s : State) (c : Codeword),
    (∀ k < 3, xorAll ((coverage k).map (codeBit c)) = false) ↔
      ∃ d t, exec (.encode d) s = .next t ∧ t.encC = some c

/-! ## DECODE -/

/-- 41_decoder.md R68, R69: the syndrome trees are the source's accumulation, in whatever order it
visits the positions. -/
def Obligations.SyndromeTreesAreTheAccumulation : Prop :=
  ∀ (r : Codeword) (s : State), ∃ t n, exec (.decode r) s = .next t ∧ t.decNets = some n ∧
    n.syn.getLsbD 0 = (codeBit r 1 ^^ codeBit r 3 ^^ codeBit r 5 ^^ codeBit r 7) ∧
    n.syn.getLsbD 1 = (codeBit r 2 ^^ codeBit r 3 ^^ codeBit r 6 ^^ codeBit r 7) ∧
    n.syn.getLsbD 2 = (codeBit r 4 ^^ codeBit r 5 ^^ codeBit r 6 ^^ codeBit r 7) ∧
    ∀ order : List Nat, order.Perm [1, 2, 3, 4, 5, 6, 7] → syndromeByAccumulation r order = n.syn

/-- 41_decoder.md R70 to R72: the error position, the one-hot flip mask, the corrected word on its own
net, and the extracted data. -/
def Obligations.DecoderFlipsOnlyTheErrorPosition : Prop :=
  ∀ (r : Codeword) (s : State), ∃ t n q, exec (.decode r) s = .next t ∧
    t.decNets = some n ∧ t.decQ = some q ∧ t.decR = some r ∧
    n.err = 4 * (n.syn.getLsbD 2).toNat + 2 * (n.syn.getLsbD 1).toNat + (n.syn.getLsbD 0).toNat ∧
    n.err ≤ 7 ∧
    (∀ p ∈ positions, codeBit n.flip p = decide (n.err = p)) ∧
    (∀ p p', codeBit n.flip p = true → codeBit n.flip p' = true → p = p') ∧
    (n.err = 0 → n.flip = 0#7 ∧ n.corrected = r) ∧
    (∀ p ∈ positions, codeBit n.corrected p = (codeBit r p ^^ codeBit n.flip p)) ∧
    dataBits q = [codeBit n.corrected 3, codeBit n.corrected 5, codeBit n.corrected 6,
      codeBit n.corrected 7]

/-- 41_decoder.md R73, R74: DECODE completes in every state, for every received word, with the result
the rule's pseudocode gives and nothing else changed; its encoding, corner cases and example. -/
def Obligations.DecodeExecutes : Prop :=
  (∀ (c : Codeword) (s : State),
    let r : Nat → Bit := fun p => c.getLsbD (7 - p)
    let s0 : Bit := r 1 ^^ r 3 ^^ r 5 ^^ r 7
    let s1 : Bit := r 2 ^^ r 3 ^^ r 6 ^^ r 7
    let s2 : Bit := r 4 ^^ r 5 ^^ r 6 ^^ r 7
    let e : Nat := 4 * s2.toNat + 2 * s1.toNat + s0.toNat
    let r' : Nat → Bit := fun p => r p ^^ decide (e = p)
    decodeCmd (1#1 ++ c) = .ok (.decode c) ∧ (1#1 ++ c) &&& 0x80#8 = 0x80#8 ∧
    exec (.decode c) s = .next { s with
      decR := some c
      res := some (BitVec.ofBoolListBE [false, false, false, false, r' 3, r' 5, r' 6, r' 7]) } ∧
    (e = 0 ∨ e = 1 ∨ e = 2 ∨ e = 4 →
      BitVec.ofBoolListBE [r' 3, r' 5, r' 6, r' 7] = BitVec.ofBoolListBE [r 3, r 5, r 6, r 7])) ∧
  (∀ (s : State) (x : Codeword × Word),
    x ∈ [(0x00#7, 0x00#8), (0x7F#7, 0x0F#8), (0x56#7, 0x0E#8)] →
    exec (.decode x.1) s = .next { s with decR := some x.1, res := some x.2 }) ∧
  (decNets 0x00#7).syn = 0b000#3 ∧ (decNets 0x7F#7).syn = 0b000#3 ∧ (decNets 0x56#7).syn = 0b001#3 ∧
  (decNets 0x56#7).err = 1

/-- 41_decoder.md R75: a valid codeword has syndrome 000 and is left unmodified. -/
def Obligations.ValidCodewordIsLeftUnmodified : Prop :=
  ∀ (d : DataWord) (s : State), ∃ t n, exec (.decode (encodeFn d)) s = .next t ∧
    t.decNets = some n ∧ n.syn = 0#3 ∧ n.corrected = encodeFn d

/-- 41_decoder.md R76: the syndrome is the exclusive-or of the error positions, whatever the codeword,
for any list of errors; for one error it is that position. -/
def Obligations.SyndromeIsTheErrorPattern : Prop :=
  (∀ (d : DataWord) (s : State) (ps : List Nat), (∀ p ∈ ps, 1 ≤ p ∧ p ≤ 7) →
    ∃ t n, exec (.decode (flipAll (encodeFn d) ps)) s = .next t ∧ t.decNets = some n ∧
      n.syn = ps.foldl (fun acc p => acc ^^^ bin3 p) 0#3) ∧
  ∀ (d : DataWord) (s : State) (p : Nat), 1 ≤ p → p ≤ 7 →
    ∃ t n, exec (.decode (flipAt (encodeFn d) p)) s = .next t ∧ t.decNets = some n ∧
      n.syn = bin3 p ∧ n.err = p

/-- 41_decoder.md R77, R78: a codeword with no error, or with one at any position, decodes to the data
word that was encoded. -/
def Obligations.SingleErrorIsCorrected : Prop :=
  (∀ (d : DataWord) (s : State) (p : Nat), 1 ≤ p → p ≤ 7 →
    ∃ t, exec (.decode (flipAt (encodeFn d) p)) s = .next t ∧ t.decQ = some d ∧
      t.res = some (zext8 d)) ∧
  ∀ (d : DataWord) (s : State),
    ∃ t, exec (.decode (encodeFn d)) s = .next t ∧ t.decQ = some d ∧ t.res = some (zext8 d)

/-- 41_decoder.md R79: two errors are always miscorrected, silently: a third position is flipped, the
corrected word is another valid codeword, and the data differs from what was encoded. -/
def Obligations.DoubleErrorIsMiscorrected : Prop :=
  ∀ (d : DataWord) (s : State) (a b : Nat), 1 ≤ a → a ≤ 7 → 1 ≤ b → b ≤ 7 → a ≠ b →
    ∃ t n d', exec (.decode (flipAt (flipAt (encodeFn d) a) b)) s = .next t ∧
      t.decNets = some n ∧ n.err = a ^^^ b ∧ n.err ≠ 0 ∧ n.err ≠ a ∧ n.err ≠ b ∧
      n.corrected = flipAt (flipAt (flipAt (encodeFn d) a) b) n.err ∧
      n.corrected = encodeFn d' ∧ encodeFn d' ≠ encodeFn d ∧ d' ≠ d ∧
      t.decQ = some d' ∧ t.res = some (zext8 d')

/-- 41_decoder.md R80: three or more errors: undetected when their positions XOR to 000, for three
errors exactly in seven sets, and otherwise the position their XOR names is flipped. -/
def Obligations.ThreeOrMoreErrors : Prop :=
  ∀ (d : DataWord) (s : State) (ps : List Nat), ps.Nodup → (∀ p ∈ ps, 1 ≤ p ∧ p ≤ 7) →
    3 ≤ ps.length →
    ∃ t n q, exec (.decode (flipAll (encodeFn d) ps)) s = .next t ∧ t.decNets = some n ∧
      t.decQ = some q ∧ t.res = some (zext8 q) ∧
      (ps.foldl (fun acc p => acc ^^^ bin3 p) 0#3 = 0#3 →
        (∃ d', flipAll (encodeFn d) ps = encodeFn d') ∧ n.flip = 0#7 ∧
        n.corrected = flipAll (encodeFn d) ps ∧ q ≠ d) ∧
      (ps.foldl (fun acc p => acc ^^^ bin3 p) 0#3 ≠ 0#3 →
        n.err = val3 (ps.foldl (fun acc p => acc ^^^ bin3 p) 0#3) ∧
        n.corrected = flipAt (flipAll (encodeFn d) ps) n.err) ∧
      (ps.length = 3 →
        (ps.foldl (fun acc p => acc ^^^ bin3 p) 0#3 = 0#3 ↔
          ∃ x ∈ [[1, 2, 3], [1, 4, 5], [1, 6, 7], [2, 4, 6], [2, 5, 7], [3, 4, 7], [3, 5, 6]],
            ps.Perm x))

/-- 41_decoder.md R81: every received word decodes, and the words that decode to a data word are its
codeword and the seven words at distance 1 from it, eight in all. -/
def Obligations.EightWordsDecodeToEachDataWord : Prop :=
  (∀ (c : Codeword) (s : State), ∃ t q, exec (.decode c) s = .next t ∧ t.decQ = some q) ∧
  (∀ (d : DataWord) (c : Codeword) (s : State),
    (∃ t, exec (.decode c) s = .next t ∧ t.decQ = some d) ↔
      c ∈ encodeFn d :: positions.map (flipAt (encodeFn d))) ∧
  ∀ d : DataWord, (encodeFn d :: positions.map (flipAt (encodeFn d))).Nodup

/-! ## What an instruction leaves alone -/

/-- 00_scope.md R3: ENC and DEC share no state. Each leaves the other's ports and nets as they were, and
the two orders of an ENCODE and a DECODE leave the same ports. -/
def Obligations.UnitsShareNoState : Prop :=
  ∀ (d : DataWord) (c : Codeword) (s : State), ∃ te td ted tde,
    exec (.encode d) s = .next te ∧ exec (.decode c) s = .next td ∧
    exec (.decode c) te = .next ted ∧ exec (.encode d) td = .next tde ∧
    te.decR = s.decR ∧ te.decQ = s.decQ ∧ te.decNets = s.decNets ∧
    td.encD = s.encD ∧ td.encC = s.encC ∧ td.encNets = s.encNets ∧
    ted.encD = tde.encD ∧ ted.encC = tde.encC ∧ ted.decR = tde.decR ∧ ted.decQ = tde.decQ ∧
    ted.encC = te.encC ∧ ted.decQ = td.decQ

/-- 20_memory.md R39: the frame of both instructions. The operand stands on its port as it was given,
nothing but that port and the result word changes, and a second time gives the same. HAM74 has no other
register, flag or memory to keep (10_state.md R14 to R18, 20_memory.md R29). -/
def Obligations.TransactionHasNoSideEffect : Prop :=
  ∀ (i : Instr) (s t : State), exec i s = .next t →
    t.pending = s.pending ∧ t.completed = s.completed ∧ t.refusalMark = s.refusalMark ∧
    t.draws = s.draws ∧
    (∀ d, i = .encode d → t.encD = some d ∧ t.decR = s.decR) ∧
    (∀ c, i = .decode c → t.decR = some c ∧ t.encD = s.encD) ∧
    exec i t = .next t

/-! ## Command words -/

/-- Decoding the encoding of a well-formed instruction gives it back, for every operand
(30_encoding.md R47, R48, R51). -/
def Obligations.DecodeOfEncodeIsIdentity : Prop :=
  ∀ i : Instr, i.wf = true →
    decodeCmd (encodeCmd i) = .ok i ∧ cmdWf (encodeCmd i) = true ∧
    decodeTableWord 8 (encodeCmd i).toNat = some i

/-- A command word that decodes is the encoding of what it decodes to, and the words that do not decode
are exactly those that are not well formed (30_encoding.md R51, R52). -/
def Obligations.EncodeOfDecodeIsIdentity : Prop :=
  (∀ (w : Word) (i : Instr), decodeCmd w = .ok i → encodeCmd i = w ∧ i.wf = true) ∧
  ∀ (w : Word) (e : DecodeReject), decodeCmd w = .error e ↔ cmdWf w = false

/-- 30_encoding.md R51: decoding is total on the 256 words, with 128, 16 and 112 of them in its
three lines. -/
def Obligations.CommandWordsDecodeByTheirClass : Prop :=
  (∀ w : Word, w.getLsbD 7 = true → decodeCmd w = .ok (.decode (w.extractLsb' 0 7))) ∧
  (∀ w : Word, w.getLsbD 7 = false → w.extractLsb' 4 3 = 0#3 →
    decodeCmd w = .ok (.encode (w.extractLsb' 0 4))) ∧
  (∀ w : Word, w.getLsbD 7 = false → w.extractLsb' 4 3 ≠ 0#3 →
    decodeCmd w = .error .reservedEncodeBits) ∧
  (∀ w : Word, decodeCmd w = .error .reservedEncodeBits ↔ 0x10#8 ≤ w ∧ w ≤ 0x7F#8) ∧
  ((List.range 256).filter fun n => (BitVec.ofNat 8 n).getLsbD 7).length = 128 ∧
  ((List.range 256).filter fun n =>
    !(BitVec.ofNat 8 n).getLsbD 7 && (BitVec.ofNat 8 n).extractLsb' 4 3 == 0#3).length = 16 ∧
  ((List.range 256).filter fun n =>
    decide (decodeCmd (BitVec.ofNat 8 n) = .error .reservedEncodeBits)).length = 112

/-- Words written out from 30_encoding.md R47, R48, R56 and 95_test_vectors.md V1 to V4, V19. -/
def Obligations.WrittenWordsDecode : Prop :=
  decodeCmd 0b00001000#8 = .ok (.encode 0b1000#4) ∧
  decodeCmd 0b00000100#8 = .ok (.encode 0b0100#4) ∧
  decodeCmd 0b00001111#8 = .ok (.encode 0b1111#4) ∧
  decodeCmd 0b10010110#8 = .ok (.decode 0b0010110#7) ∧
  decodeCmd 0b11010110#8 = .ok (.decode 0b1010110#7) ∧
  decodeCmd 0b11111111#8 = .ok (.decode 0b1111111#7) ∧
  decodeCmd 0b00010000#8 = .error .reservedEncodeBits ∧
  decodeCmd 0b01111111#8 = .error .reservedEncodeBits

/-- 30_encoding.md R56: assembly and disassembly. A list of integers 0 and 1 assembles to its word, a
reserved word disassembles to itself, and disassembly inverts assembly. -/
def Obligations.DisassemblyInvertsAssembly : Prop :=
  (∀ b0 b1 b2 b3 : Bit,
    assemble (.call .encode (.list [.int b0.toInt, .int b1.toInt, .int b2.toInt, .int b3.toInt])) =
      some (BitVec.ofBoolListBE [false, false, false, false, b0, b1, b2, b3])) ∧
  (∀ b1 b2 b3 b4 b5 b6 b7 : Bit,
    assemble (.call .decode (.list [.int b1.toInt, .int b2.toInt, .int b3.toInt, .int b4.toInt,
      .int b5.toInt, .int b6.toInt, .int b7.toInt])) =
      some (BitVec.ofBoolListBE [true, b1, b2, b3, b4, b5, b6, b7])) ∧
  (∀ (op : Op) (v : HostValue) (w : Word),
    assemble (.call op v) = some w → disassemble w = .call op v) ∧
  (∀ w : Word, decodeCmd w = .error .reservedEncodeBits → disassemble w = .cmd w) ∧
  ∀ w : Word, assemble (disassemble w) = some w

/-- The text of every word's disassembly, and of every raw word, is read back as that statement
(30_encoding.md R55, R56; the text's blanks and digits are the model's choice, notes/assumptions/7.md). -/
def Obligations.StatementTextReadsBack : Prop :=
  ∀ w : Word, parseStatement (statementText (disassemble w)) = some (disassemble w) ∧
    parseStatement (statementText (.cmd w)) = some (.cmd w)

/-! ## One step of a run -/

/-- Where the next transaction is a raw command word that decodes to a well-formed instruction, the step
is that instruction's own effect, closed with its result word as the outcome (30_encoding.md R45, R49,
R51). -/
def Obligations.StepRunsTheDecodedInstruction : Prop :=
  ∀ (s : State) (w : Word) (rest : List Request) (i : Instr),
    s.pending = .cmd w :: rest → decodeCmd w = .ok i → i.wf = true →
    ∃ t r, exec i { s with pending := rest, res := none } = .next t ∧ t.res = some r ∧
      step s = .next { t with completed := t.completed ++ [⟨.cmd w, .result r, none⟩] }

/-- 60_exceptions.md R82: a host value that passes validation is packed into a command word, the
instruction of that word is performed, and its result word is unpacked into a list for the host. -/
def Obligations.HostCallRunsItsCommandWord : Prop :=
  ∀ (s : State) (op : Op) (v : HostValue) (rest : List Request) (w : Word),
    s.pending = .call op v :: rest → validate op v = .pass w →
    ∃ i t r u copy, decodeCmd w = .ok i ∧
      exec i { s with pending := rest, res := none } = .next t ∧ t.res = some r ∧
      step s = .next u ∧
      u.completed = s.completed ++ [⟨.call op v, .values (unpackResult op r), copy⟩] ∧
      u.encD = t.encD ∧ u.decR = t.decR ∧ u.res = some r ∧ u.pending = rest ∧
      u.refusalMark = s.refusalMark ∧
      ((∃ d, op = .encode ∧ i = .encode d ∧ (unpackResult op r) = codeBits (encodeFn d)) ∨
       (∃ c, op = .decode ∧ i = .decode c ∧ (unpackResult op r) = dataBits (decodeFn c)))

/-- 30_encoding.md R49: the form of the result word of a raw command word, and that there is none after
an error or a refusal. -/
def Obligations.ResultWordHasItsFormat : Prop :=
  (∀ (s : State) (d : DataWord) (rest : List Request), s.pending = .cmd (0#4 ++ d) :: rest →
    ∃ t r c copy, step s = .next t ∧ t.res = some r ∧ t.encC = some c ∧ t.encD = some d ∧
      t.completed = s.completed ++ [⟨.cmd (0#4 ++ d), .result r, copy⟩] ∧
      r.getLsbD 7 = false ∧ r.extractLsb' 0 7 = c) ∧
  (∀ (s : State) (x : Codeword) (rest : List Request), s.pending = .cmd (1#1 ++ x) :: rest →
    ∃ t r q copy, step s = .next t ∧ t.res = some r ∧ t.decQ = some q ∧ t.decR = some x ∧
      t.completed = s.completed ++ [⟨.cmd (1#1 ++ x), .result r, copy⟩] ∧
      r.extractLsb' 4 4 = 0#4 ∧ r.extractLsb' 0 4 = q) ∧
  ∀ (s : State) (req : Request) (rest : List Request), s.pending = req :: rest →
    ∃ t o copy, step s = .next t ∧ t.completed = s.completed ++ [⟨req, o, copy⟩] ∧
      (t.res = none ↔ (∃ e, o = .error e) ∨ (∃ r, o = .refused r))

/-- 30_encoding.md R53: a reserved command word is refused with no result word, and the refusal stays
recorded for the whole run, which then never counts as one where every transaction succeeded. That the
run goes on is DEDUCED from 95_test_vectors.md P5 (notes/assumptions/2.md). -/
def Obligations.ReservedWordIsRefusedForTheWholeRun : Prop :=
  ∀ (s : State) (w : Word) (rest : List Request),
    w.getLsbD 7 = false → w.extractLsb' 4 3 ≠ 0#3 → s.pending = .cmd w :: rest →
    s.EndsWithoutCore rest (.cmd w) (.refused .reservedEncodeBits) ∧
    ∀ (n : Nat) (u : State), Sys2Proof.core.run (n + 1) s = .next u →
      u.refusalMark = true ∧ u.everySucceeded = false

/-- 60_exceptions.md R84: the host's ENCODE, for every host value. -/
def Obligations.HostEncodeFollowsItsValidation : Prop :=
  ∀ (s : State) (v : HostValue) (rest : List Request), s.pending = .call .encode v :: rest →
    (∀ x, v = .str x ∨ v = .nonSeq x →
      s.EndsWithoutCore rest (.call .encode v) (.error ⟨.typeKind, 1, "Input is not a list."⟩)) ∧
    (∀ x, v = .otherSeq x →
      s.EndsWithoutCore rest (.call .encode v) (.refused .nonListSequence)) ∧
    (∀ l, v = .list l → (∃ k, Elem.int k ∈ l ∧ k ≠ 0 ∧ k ≠ 1) →
      s.EndsWithoutCore rest (.call .encode v)
        (.error ⟨.valueKind, 2, "Input is not binary."⟩)) ∧
    (∀ l, v = .list l → (∀ k, Elem.int k ∈ l → k = 0 ∨ k = 1) → (∃ x, Elem.nonInt x ∈ l) →
      s.EndsWithoutCore rest (.call .encode v) (.refused .nonIntegerElement)) ∧
    (∀ l, v = .list l → (∀ e ∈ l, e = .int 0 ∨ e = .int 1) → l.length ≠ 4 →
      s.EndsWithoutCore rest (.call .encode v)
        (.error ⟨.valueKind, 3, "Input does not contain 4-bits."⟩)) ∧
    (∀ d0 d1 d2 d3 : Bit,
      v = .list [.int d0.toInt, .int d1.toInt, .int d2.toInt, .int d3.toInt] →
      ∃ t copy, step s = .next t ∧ t.pending = rest ∧ t.decR = s.decR ∧
        t.encD = some (packData d0 d1 d2 d3) ∧
        t.res = some (zext8 (encodeFn (packData d0 d1 d2 d3))) ∧
        t.refusalMark = s.refusalMark ∧
        t.completed = s.completed ++ [⟨.call .encode v, .values [d0 ^^ d1 ^^ d3, d0 ^^ d2 ^^ d3, d0,
          d1 ^^ d2 ^^ d3, d1, d2, d3], copy⟩])

/-- 60_exceptions.md R85: the host's DECODE, for every host value. -/
def Obligations.HostDecodeFollowsItsValidation : Prop :=
  ∀ (s : State) (v : HostValue) (rest : List Request), s.pending = .call .decode v :: rest →
    (∀ x, v = .str x ∨ v = .nonSeq x →
      s.EndsWithoutCore rest (.call .decode v) (.error ⟨.typeKind, 1, "Input is not a list."⟩)) ∧
    (∀ x, v = .otherSeq x →
      s.EndsWithoutCore rest (.call .decode v) (.refused .nonListSequence)) ∧
    (∀ l, v = .list l → (∃ k, Elem.int k ∈ l ∧ k ≠ 0 ∧ k ≠ 1) →
      s.EndsWithoutCore rest (.call .decode v)
        (.error ⟨.valueKind, 2, "Input is not binary."⟩)) ∧
    (∀ l, v = .list l → (∀ k, Elem.int k ∈ l → k = 0 ∨ k = 1) → (∃ x, Elem.nonInt x ∈ l) →
      s.EndsWithoutCore rest (.call .decode v) (.refused .nonIntegerElement)) ∧
    (∀ l, v = .list l → (∀ e ∈ l, e = .int 0 ∨ e = .int 1) → l.length ≠ 7 →
      s.EndsWithoutCore rest (.call .decode v)
        (.error ⟨.valueKind, 4, "Input list does not contain 7 digits."⟩)) ∧
    (∀ r1 r2 r3 r4 r5 r6 r7 : Bit,
      v = .list [.int r1.toInt, .int r2.toInt, .int r3.toInt, .int r4.toInt, .int r5.toInt,
        .int r6.toInt, .int r7.toInt] →
      ∃ t copy, step s = .next t ∧ t.pending = rest ∧ t.encD = s.encD ∧
        t.decR = some (packCode r1 r2 r3 r4 r5 r6 r7) ∧
        t.res = some (zext8 (decodeFn (packCode r1 r2 r3 r4 r5 r6 r7))) ∧
        t.refusalMark = s.refusalMark ∧
        t.completed = s.completed ++ [⟨.call .decode v,
          .values (dataBits (decodeFn (packCode r1 r2 r3 r4 r5 r6 r7))), copy⟩])

/-- 60_exceptions.md R86: the four error causes, each with its kind, code and message, exactly where
the table says it is raised, and no other error. -/
def Obligations.ErrorsAreTheFourCauses : Prop :=
  ∀ (s : State) (op : Op) (v : HostValue) (rest : List Request), s.pending = .call op v :: rest →
    ∃ t o copy, step s = .next t ∧ t.completed = s.completed ++ [⟨.call op v, o, copy⟩] ∧
      (o = .error ⟨.typeKind, 1, "Input is not a list."⟩ ↔
        (∃ x, v = .str x) ∨ (∃ x, v = .nonSeq x)) ∧
      (o = .error ⟨.valueKind, 2, "Input is not binary."⟩ ↔
        ∃ l k, v = .list l ∧ Elem.int k ∈ l ∧ k ≠ 0 ∧ k ≠ 1) ∧
      (o = .error ⟨.valueKind, 3, "Input does not contain 4-bits."⟩ ↔
        op = .encode ∧ ∃ l, v = .list l ∧ (∀ e ∈ l, e = .int 0 ∨ e = .int 1) ∧ l.length ≠ 4) ∧
      (o = .error ⟨.valueKind, 4, "Input list does not contain 7 digits."⟩ ↔
        op = .decode ∧ ∃ l, v = .list l ∧ (∀ e ∈ l, e = .int 0 ∨ e = .int 1) ∧ l.length ≠ 7) ∧
      ∀ e, o = .error e → e ∈ [⟨.typeKind, 1, "Input is not a list."⟩,
        ⟨.valueKind, 2, "Input is not binary."⟩, ⟨.valueKind, 3, "Input does not contain 4-bits."⟩,
        ⟨.valueKind, 4, "Input list does not contain 7 digits."⟩]

/-- 60_exceptions.md R87: only the first violation is reported: shape, then elements, then length, with
the refusals at their places in that order. -/
def Obligations.FirstViolationIsReported : Prop :=
  ∀ (s : State) (op : Op) (rest : List Request),
    (∀ l, (∃ k, Elem.int k ∈ l ∧ k ≠ 0 ∧ k ≠ 1) → s.pending = .call op (.list l) :: rest →
      s.EndsWithoutCore rest (.call op (.list l))
        (.error ⟨.valueKind, 2, "Input is not binary."⟩)) ∧
    (∀ l, (∀ k, Elem.int k ∈ l → k = 0 ∨ k = 1) → (∃ x, Elem.nonInt x ∈ l) →
      s.pending = .call op (.list l) :: rest →
      s.EndsWithoutCore rest (.call op (.list l)) (.refused .nonIntegerElement)) ∧
    (s.pending = .call .encode (.list []) :: rest →
      s.EndsWithoutCore rest (.call .encode (.list []))
        (.error ⟨.valueKind, 3, "Input does not contain 4-bits."⟩)) ∧
    (s.pending = .call .decode (.list []) :: rest →
      s.EndsWithoutCore rest (.call .decode (.list []))
        (.error ⟨.valueKind, 4, "Input list does not contain 7 digits."⟩)) ∧
    (∀ x, s.pending = .call op (.otherSeq x) :: rest →
      s.EndsWithoutCore rest (.call op (.otherSeq x)) (.refused .nonListSequence))

/-- 60_exceptions.md R90: an error changes nothing, and the next transaction behaves exactly as if the
failed one had not been issued. Only the host's own lists, which are draws (R104), are left out. -/
def Obligations.ErrorLeavesNothingBehind : Prop :=
  ∀ (s : State) (bad req : Request) (rest : List Request) (e : ErrorRecord),
    s.pending = bad :: req :: rest → outcomeOf bad = .error e →
    s.EndsWithoutCore (req :: rest) bad (.error e) ∧
    ∃ t u v o cu cv, step s = .next t ∧ step t = .next u ∧
      step { s with pending := req :: rest } = .next v ∧
      u.encD = v.encD ∧ u.decR = v.decR ∧ u.res = v.res ∧ u.refusalMark = v.refusalMark ∧
      u.pending = v.pending ∧
      u.completed = t.completed ++ [⟨req, o, cu⟩] ∧ v.completed = s.completed ++ [⟨req, o, cv⟩]

/-- 60_exceptions.md R104, as the model has it (notes/assumptions/4.md): a list a host passes holds a
draw afterwards, whatever the call and its outcome, and a request that passes none draws nothing. It
says nothing of a draw's value. -/
def Obligations.HostListIsDrawnAfterTheCall : Prop :=
  (∀ (s : State) (op : Op) (l : List Elem) (rest : List Request),
    s.pending = .call op (.list l) :: rest →
    ∃ t o, step s = .next t ∧ t.draws = s.draws + 1 ∧
      t.completed = s.completed ++
        [⟨.call op (.list l), o, some (Config.freeHostList s.draws)⟩]) ∧
  ∀ (s : State) (req : Request) (rest : List Request), s.pending = req :: rest →
    (∀ op l, req ≠ .call op (.list l)) →
    ∃ t o, step s = .next t ∧ t.draws = s.draws ∧ t.completed = s.completed ++ [⟨req, o, none⟩]

/-- No state makes a step stop: neither a fault nor a refusal of the machine is ever answered. That the
core raises no exception is 60_exceptions.md R92. That a refused transaction does not stop the machine
(DEDUCED, notes/assumptions/2.md) and that a step with nothing pending answers a next state (DESIGN
CHOICE, notes/assumptions/3.md) are the model's own. -/
def Obligations.StepAlwaysAnswersANextState : Prop :=
  ∀ s : State, ∃ t, step s = .next t

/-- 20_memory.md R38: a step performs one transaction whole: it is taken, and it has its one outcome,
which its operand alone determines. -/
def Obligations.StepIsOneWholeTransaction : Prop :=
  ∀ (s : State) (req : Request) (rest : List Request), s.pending = req :: rest →
    ∃ t copy, step s = .next t ∧ t.pending = rest ∧
      t.completed = s.completed ++ [⟨req, outcomeOf req, copy⟩]

/-- With no transaction pending a step changes nothing: the model's choice for the end of a run
(notes/assumptions/3.md, 70_reset_and_hazards.md R112). -/
def Obligations.EndOfRunIsStill : Prop :=
  ∀ s : State, s.pending = [] → step s = .next s

/-! ## Whole runs -/

/-- 10_state.md R13: what a transaction answers does not depend on the state it meets. -/
def Obligations.OutcomeDoesNotDependOnTheState : Prop :=
  ∀ (s1 s2 : State) (req : Request) (rest1 rest2 : List Request),
    s1.pending = req :: rest1 → s2.pending = req :: rest2 →
    ∃ t1 t2 o c1 c2, step s1 = .next t1 ∧ step s2 = .next t2 ∧ t1.res = t2.res ∧
      t1.completed = s1.completed ++ [⟨req, o, c1⟩] ∧
      t2.completed = s2.completed ++ [⟨req, o, c2⟩]

/-- 70_reset_and_hazards.md R112: from any state, a run of as many steps as there are transactions
pending ends with none pending, and each of them has its one outcome, in order. That the run goes on
after a refusal (DEDUCED, notes/assumptions/2.md) and that transactions are performed in the order in
which they are pending (DESIGN CHOICE, notes/assumptions/8.md) are the model's own. -/
def Obligations.RunGivesEveryTransactionItsOutcome : Prop :=
  ∀ s : State, ∃ t : State, Sys2Proof.core.run s.pending.length s = .next t ∧ t.pending = [] ∧
    t.completed.map (fun c => (c.request, c.outcome)) =
      s.completed.map (fun c => (c.request, c.outcome)) ++
        s.pending.map (fun req => (req, outcomeOf req)) ∧
    t.refusalMark = (s.refusalMark || s.pending.any fun req => (outcomeOf req).isRefused)

/-- 20_memory.md R40: the outcomes of a set of transactions are the same under every order in which they
are pending (notes/assumptions/8.md; refused ones among them, notes/assumptions/2.md). -/
def Obligations.OrderOfTransactionsDoesNotMatter : Prop :=
  ∀ s1 s2 : State, s1.pending.Perm s2.pending →
    ∃ (t1 t2 : State) (new1 new2 : List Completed),
      Sys2Proof.core.run s1.pending.length s1 = .next t1 ∧
      Sys2Proof.core.run s2.pending.length s2 = .next t2 ∧
      t1.completed = s1.completed ++ new1 ∧ t2.completed = s2.completed ++ new2 ∧
      (new1.map fun c => (c.request, c.outcome)).Perm (new2.map fun c => (c.request, c.outcome)) ∧
      (s1.refusalMark = s2.refusalMark → t1.refusalMark = t2.refusalMark)

/-- The invariant of a run's state holds after power-up, as the model has it (DEDUCED,
notes/assumptions/10.md). -/
def Obligations.ResetMeetsTheInvariant : Prop := State.reset.Inv

/-- Every step keeps the invariant of a run's state, from every state that meets it: the refusal mark,
the recorded outcomes, the host's copies and the result word all stay what the transactions performed
make them (30_encoding.md R49, R53; 10_state.md R13, R22; 60_exceptions.md R104). -/
def Obligations.StepKeepsTheInvariant : Prop :=
  ∀ s t : State, s.Inv → step s = .next t → t.Inv

/-- The code's promise at the host (41_decoder.md R77, R78; 60_exceptions.md R84, R85): the list a host
gets from ENCODE, with no bit or any one bit inverted on its way, gives the four bits back through
DECODE, whatever states the two calls meet. -/
def Obligations.HostRoundTripCorrectsOneError : Prop :=
  ∀ (s1 : State) (rest1 : List Request) (b0 b1 b2 b3 : Bit),
    s1.pending = .call .encode (hostBits [b0, b1, b2, b3]) :: rest1 →
    ∃ t1 c copy1, step s1 = .next t1 ∧
      t1.completed = s1.completed ++
        [⟨.call .encode (hostBits [b0, b1, b2, b3]), .values (codeBits c), copy1⟩] ∧
      ∀ (received : Codeword) (s2 : State) (rest2 : List Request),
        (received = c ∨ ∃ p, 1 ≤ p ∧ p ≤ 7 ∧ received = flipAt c p) →
        s2.pending = .call .decode (hostBits (codeBits received)) :: rest2 →
        ∃ t2 copy2, step s2 = .next t2 ∧
          t2.completed = s2.completed ++
            [⟨.call .decode (hostBits (codeBits received)), .values [b0, b1, b2, b3], copy2⟩]
end

