-- ==== Sys2Proof/Laws/Codec.lean ====
section
/-! SUPPORT. The laws of the two combinational functions that later proofs cite: what each operator does
to a bit, that packing and unpacking are inverse, and that the syndrome is linear. -/

namespace Sys2Proof.Machine

/-- A flip inverts the one bit it names. -/
theorem codeBit_flipAt (c : Codeword) (p q : Nat) (hq : q ∈ positions) :
    codeBit (flipAt c p) q = (codeBit c q ^^ decide (p = q)) := by
  have key : ∀ c : Codeword, ∀ p < 8, ∀ q ∈ positions,
      codeBit (flipAt c p) q = (codeBit c q ^^ decide (p = q)) := by decide
  by_cases hp : p < 8
  · exact key c p hp q hq
  · have hone : oneHot p = 0#7 := by
      have ne : ∀ q < 8, (p == q) = false := fun q hq => by simp; omega
      simp only [oneHot, ne 1 (by decide), ne 2 (by decide), ne 3 (by decide), ne 4 (by decide),
        ne 5 (by decide), ne 6 (by decide), ne 7 (by decide)]
      rfl
    have hne : p ≠ q := by
      have : q < 8 := by revert q; decide
      omega
    simp [flipAt, hone, hne]

/-- Packing the bits of a data word gives it back. -/
theorem packData_dataBit (d : DataWord) :
    packData (dataBit d 0) (dataBit d 1) (dataBit d 2) (dataBit d 3) = d := by
  revert d; decide

/-- The zero extension keeps the operand and nothing else. -/
theorem zext8_injective {n : Nat} (h : n ≤ 8) (a b : BitVec n) (hab : zext8 a = zext8 b) : a = b := by
  apply BitVec.eq_of_toNat_eq
  have h' := congrArg BitVec.toNat hab
  have fits : ∀ v : BitVec n, v.toNat % 2 ^ 8 = v.toNat := fun v =>
    Nat.mod_eq_of_lt (lt_of_lt_of_le v.isLt (Nat.pow_le_pow_right (by decide) h))
  rwa [zext8, zext8, BitVec.toNat_setWidth, BitVec.toNat_setWidth, fits a, fits b] at h'

/-- An error at `p` adds `bin3(p)` to the syndrome (41_decoder.md R76). -/
theorem syndrome_flipAt (c : Codeword) (p : Nat) (hp : 1 ≤ p ∧ p ≤ 7) :
    syndrome (flipAt c p) = syndrome c ^^^ bin3 p := by
  have key : ∀ c : Codeword, ∀ p < 8, 1 ≤ p → syndrome (flipAt c p) = syndrome c ^^^ bin3 p := by
    decide
  exact key c p (by omega) hp.1

/-- Accumulating two positions in either order is the same (41_decoder.md R68). -/
theorem accumulate_comm (r : Codeword) (acc : Syndrome) (p q : Nat) :
    accumulate r (accumulate r acc p) q = accumulate r (accumulate r acc q) p := by
  unfold accumulate
  split <;> split <;> simp [BitVec.xor_assoc, BitVec.xor_comm (bin3 p)]

/-- Toggling for two data bits in either order is the same (40_encoder.md R59). -/
theorem toggleParity_comm (d : DataWord) (n : EncNets) (i j : Nat) :
    toggleParity d (toggleParity d n i) j = toggleParity d (toggleParity d n j) i := by
  unfold toggleParity
  split <;> split <;> simp [Bool.xor_comm (decide (dataPosAt i ∈ coverage _))]

/-- The decoder as one function of the received word. -/
theorem decNets_eq (r : Codeword) :
    decNets r = ⟨syndrome r, errorPosition (syndrome r), flipMask (errorPosition (syndrome r)),
      correct r (flipMask (errorPosition (syndrome r)))⟩ := rfl

end Sys2Proof.Machine
end

