-- ==== Sys2Proof/Laws/HostAdapter.lean ====
section
/-! SUPPORT. What the host adapter's validation can answer, said once. -/

namespace Sys2Proof.Machine

/-- Four bits are packed into the word of the ENCODE of their data word. -/
theorem encodeWordOf_bits (a0 a1 a2 a3 : Bit) :
    ∃ w, encodeWordOf [a0, a1, a2, a3] = .pass w ∧
      decodeCmd w = .ok (.encode (packData a0 a1 a2 a3)) :=
  ⟨_, rfl, by revert a0 a1 a2 a3; decide⟩

/-- Seven bits are packed into the word of the DECODE of their received word. -/
theorem decodeWordOf_bits (a0 a1 a2 a3 a4 a5 a6 : Bit) :
    ∃ w, decodeWordOf [a0, a1, a2, a3, a4, a5, a6] = .pass w ∧
      decodeCmd w = .ok (.decode (packCode a0 a1 a2 a3 a4 a5 a6)) :=
  ⟨_, rfl, by revert a0 a1 a2 a3 a4 a5 a6; decide⟩

/-- Only four bits pass the length check of ENCODE. -/
theorem encodeWordOf_length (bs : List Bit) (h : bs.length ≠ 4) :
    encodeWordOf bs = .raise .encLength := by
  unfold encodeWordOf
  split
  · simp at h
  · rfl

/-- Only seven bits pass the length check of DECODE. -/
theorem decodeWordOf_length (bs : List Bit) (h : bs.length ≠ 7) :
    decodeWordOf bs = .raise .decLength := by
  unfold decodeWordOf
  split
  · simp at h
  · rfl

/-- A non-binary integer comes before every other check of a list (60_exceptions.md R87). -/
theorem validateList_nonBinary (f : List Bit → Verdict) (l : List Elem) (k : Int)
    (hk : Elem.int k ∈ l) (h : k ≠ 0 ∧ k ≠ 1) : validateList f l = .raise .notBinary := by
  have : l.any isNonBinaryInt = true :=
    List.any_eq_true.2 ⟨_, hk, by simp [isNonBinaryInt, h]⟩
  simp [validateList, this]

/-- No element is a non-binary integer. -/
theorem any_isNonBinaryInt_false (l : List Elem) (h : ∀ k, Elem.int k ∈ l → k = 0 ∨ k = 1) :
    l.any isNonBinaryInt = false := by
  rw [List.any_eq_false]
  rintro (k | x) he
  · rcases h k he with rfl | rfl <;> simp [isNonBinaryInt]
  · simp [isNonBinaryInt]

/-- An element that is no integer comes before the length (60_exceptions.md R87). -/
theorem validateList_nonInt (f : List Bit → Verdict) (l : List Elem) (x : String)
    (hx : Elem.nonInt x ∈ l) (h : ∀ k, Elem.int k ∈ l → k = 0 ∨ k = 1) :
    validateList f l = .refuse .nonIntegerElement := by
  have h2 : l.any isNonInt = true := List.any_eq_true.2 ⟨_, hx, rfl⟩
  simp [validateList, any_isNonBinaryInt_false l h, h2]

/-- A list of bits goes on to the length check. -/
theorem validateList_bits (f : List Bit → Verdict) (l : List Elem)
    (h : ∀ e ∈ l, e = Elem.int 0 ∨ e = Elem.int 1) : validateList f l = f (l.map elemBit) := by
  have h1 : ∀ k, Elem.int k ∈ l → k = 0 ∨ k = 1 := fun k hk => by simpa using h _ hk
  have h2 : l.any isNonInt = false := by
    rw [List.any_eq_false]
    intro e he
    rcases h e he with rfl | rfl <;> simp [isNonInt]
  simp [validateList, any_isNonBinaryInt_false l h1, h2]

/-- The list a host gets from ENCODE is the codeword's bits. -/
theorem unpackResult_encode (d : DataWord) :
    unpackResult .encode (encodeResult d) = codeBits (encodeFn d) := by revert d; decide

/-- The list a host gets from DECODE is the data word's bits. -/
theorem unpackResult_decode (c : Codeword) :
    unpackResult .decode (decodeResult c) = dataBits (decodeFn c) := by revert c; decide

end Sys2Proof.Machine
end

