-- ==== Sys2Proof/Laws/PerInstr.lean ====
section
/-! SUPPORT. Statements for all instructions, made per instruction. -/

namespace Sys2Proof.Laws.TableRow

/-- The mnemonic of an instruction in spec/opcode_table.json. -/
def mnemonic : Instr → String
  | .encode _ => "encode"
  | .decode _ => "decode"

/-- The instruction's command word matches its own row of the opcode map and no other row
(30_encoding.md, section 5). -/
def Statement (i : Instr) : Prop :=
  ∀ row ∈ opcodeTable, row.matches (encodeCmd i) = (row.mnemonic == mnemonic i)

theorem encode (d : DataWord) : Statement (.encode d) := by
  intro row hrow
  have key : ∀ d : DataWord, ∀ row ∈ opcodeTable,
      row.matches (encodeCmd (.encode d)) = (row.mnemonic == "encode") := by decide
  exact key d row hrow

theorem decode (c : Codeword) : Statement (.decode c) := by
  intro row hrow
  have key : ∀ c : Codeword, ∀ row ∈ opcodeTable,
      row.matches (encodeCmd (.decode c)) = (row.mnemonic == "decode") := by decide
  exact key c row hrow

end Sys2Proof.Laws.TableRow
end

