-- ==== Sys2Proof/Laws/State.lean ====
section
/-! SUPPORT. One lemma per field per update of the state, and the ports and nets as functions of the
input ports. -/

namespace Sys2Proof.Machine

variable (s : State)

@[simp] theorem State.driveEnc_encD (d : DataWord) : (s.driveEnc d).encD = some d := rfl
@[simp] theorem State.driveEnc_decR (d : DataWord) : (s.driveEnc d).decR = s.decR := rfl
@[simp] theorem State.driveEnc_res (d : DataWord) : (s.driveEnc d).res = s.res := rfl
@[simp] theorem State.driveEnc_pending (d : DataWord) : (s.driveEnc d).pending = s.pending := rfl
@[simp] theorem State.driveEnc_completed (d : DataWord) :
    (s.driveEnc d).completed = s.completed := rfl
@[simp] theorem State.driveEnc_refusalMark (d : DataWord) :
    (s.driveEnc d).refusalMark = s.refusalMark := rfl
@[simp] theorem State.driveEnc_draws (d : DataWord) : (s.driveEnc d).draws = s.draws := rfl

@[simp] theorem State.driveDec_encD (r : Codeword) : (s.driveDec r).encD = s.encD := rfl
@[simp] theorem State.driveDec_decR (r : Codeword) : (s.driveDec r).decR = some r := rfl
@[simp] theorem State.driveDec_res (r : Codeword) : (s.driveDec r).res = s.res := rfl
@[simp] theorem State.driveDec_pending (r : Codeword) : (s.driveDec r).pending = s.pending := rfl
@[simp] theorem State.driveDec_completed (r : Codeword) :
    (s.driveDec r).completed = s.completed := rfl
@[simp] theorem State.driveDec_refusalMark (r : Codeword) :
    (s.driveDec r).refusalMark = s.refusalMark := rfl
@[simp] theorem State.driveDec_draws (r : Codeword) : (s.driveDec r).draws = s.draws := rfl

@[simp] theorem State.putResult_encD (w : Word) : (s.putResult w).encD = s.encD := rfl
@[simp] theorem State.putResult_decR (w : Word) : (s.putResult w).decR = s.decR := rfl
@[simp] theorem State.putResult_res (w : Word) : (s.putResult w).res = some w := rfl
@[simp] theorem State.putResult_pending (w : Word) : (s.putResult w).pending = s.pending := rfl
@[simp] theorem State.putResult_completed (w : Word) :
    (s.putResult w).completed = s.completed := rfl
@[simp] theorem State.putResult_refusalMark (w : Word) :
    (s.putResult w).refusalMark = s.refusalMark := rfl
@[simp] theorem State.putResult_draws (w : Word) : (s.putResult w).draws = s.draws := rfl

@[simp] theorem State.take_encD (rest : List Request) : (s.take rest).encD = s.encD := rfl
@[simp] theorem State.take_decR (rest : List Request) : (s.take rest).decR = s.decR := rfl
@[simp] theorem State.take_res (rest : List Request) : (s.take rest).res = none := rfl
@[simp] theorem State.take_pending (rest : List Request) : (s.take rest).pending = rest := rfl
@[simp] theorem State.take_completed (rest : List Request) :
    (s.take rest).completed = s.completed := rfl
@[simp] theorem State.take_refusalMark (rest : List Request) :
    (s.take rest).refusalMark = s.refusalMark := rfl
@[simp] theorem State.take_draws (rest : List Request) : (s.take rest).draws = s.draws := rfl

@[simp] theorem State.complete_encD (req : Request) (o : TxOutcome) :
    (s.complete req o).encD = s.encD := rfl
@[simp] theorem State.complete_decR (req : Request) (o : TxOutcome) :
    (s.complete req o).decR = s.decR := rfl
@[simp] theorem State.complete_res (req : Request) (o : TxOutcome) :
    (s.complete req o).res = s.res := rfl
@[simp] theorem State.complete_pending (req : Request) (o : TxOutcome) :
    (s.complete req o).pending = s.pending := rfl
@[simp] theorem State.complete_completed (req : Request) (o : TxOutcome) :
    (s.complete req o).completed = s.completed ++ [⟨req, o, s.hostCopy req⟩] := rfl
@[simp] theorem State.complete_refusalMark (req : Request) (o : TxOutcome) :
    (s.complete req o).refusalMark = markAfter s.refusalMark o := rfl
@[simp] theorem State.complete_draws (req : Request) (o : TxOutcome) :
    (s.complete req o).draws = s.draws + req.drawCount := rfl

@[simp] theorem State.raiseError_eq (req : Request) (e : ErrorRecord) :
    s.raiseError req e = s.complete req (.error e) := rfl
@[simp] theorem State.refuse_eq (req : Request) (r : RefuseReason) :
    s.refuse req r = s.complete req (.refused r) := rfl

/-- The host's copy depends on the draws alone. -/
theorem hostCopy_congr {s t : State} (req : Request) (h : s.draws = t.draws) :
    s.hostCopy req = t.hostCopy req := by simp [State.hostCopy, h]
@[simp] theorem State.driveEnc_hostCopy (d : DataWord) (req : Request) :
    (s.driveEnc d).hostCopy req = s.hostCopy req := rfl
@[simp] theorem State.driveDec_hostCopy (r : Codeword) (req : Request) :
    (s.driveDec r).hostCopy req = s.hostCopy req := rfl
@[simp] theorem State.putResult_hostCopy (w : Word) (req : Request) :
    (s.putResult w).hostCopy req = s.hostCopy req := rfl
@[simp] theorem State.take_hostCopy (rest : List Request) (req : Request) :
    (s.take rest).hostCopy req = s.hostCopy req := rfl

@[simp] theorem State.encC_of_settled (d : DataWord) (h : s.encD = some d) :
    s.encC = some (encodeFn d) := by simp [State.encC, h]
@[simp] theorem State.decQ_of_settled (r : Codeword) (h : s.decR = some r) :
    s.decQ = some (decodeFn r) := by simp [State.decQ, h]
@[simp] theorem State.encNets_of_settled (d : DataWord) (h : s.encD = some d) :
    s.encNets = some (Sys2Proof.Machine.encNets d) := by simp [State.encNets, h]
@[simp] theorem State.decNets_of_settled (r : Codeword) (h : s.decR = some r) :
    s.decNets = some (Sys2Proof.Machine.decNets r) := by simp [State.decNets, h]

@[simp] theorem markAfter_eq (m : Bool) (o : TxOutcome) : markAfter m o = (m || o.isRefused) := rfl
@[simp] theorem TxOutcome.isRefused_result (w : Word) : (TxOutcome.result w).isRefused = false := rfl
@[simp] theorem TxOutcome.isRefused_values (bs : List Bit) :
    (TxOutcome.values bs).isRefused = false := rfl
@[simp] theorem TxOutcome.isRefused_error (e : ErrorRecord) :
    (TxOutcome.error e).isRefused = false := rfl
@[simp] theorem TxOutcome.isRefused_refused (r : RefuseReason) :
    (TxOutcome.refused r).isRefused = true := rfl

end Sys2Proof.Machine
end

