-- ==== Sys2Proof/Laws/Step.lean ====
section
/-! SUPPORT. What each shared operation of a transaction can do, said once. -/

namespace Sys2Proof.Machine

@[simp] theorem exec_encode (d : DataWord) (s : State) :
    exec (.encode d) s = .next ((s.driveEnc d).putResult (encodeResult d)) := rfl

@[simp] theorem exec_decode (c : Codeword) (s : State) :
    exec (.decode c) s = .next ((s.driveDec c).putResult (decodeResult c)) := rfl

/-- The state an instruction leaves: its unit's input settled, its result word given. -/
def afterExec : Instr → State → State
  | .encode d, s => (s.driveEnc d).putResult (encodeResult d)
  | .decode c, s => (s.driveDec c).putResult (decodeResult c)

theorem exec_eq (i : Instr) (s : State) : exec i s = .next (afterExec i s) := by
  cases i <;> rfl

@[simp] theorem afterExec_res (i : Instr) (s : State) : (afterExec i s).res = some (resultOf i) := by
  cases i <;> rfl
@[simp] theorem afterExec_pending (i : Instr) (s : State) : (afterExec i s).pending = s.pending := by
  cases i <;> rfl
@[simp] theorem afterExec_completed (i : Instr) (s : State) :
    (afterExec i s).completed = s.completed := by cases i <;> rfl
@[simp] theorem afterExec_refusalMark (i : Instr) (s : State) :
    (afterExec i s).refusalMark = s.refusalMark := by cases i <;> rfl
@[simp] theorem afterExec_draws (i : Instr) (s : State) : (afterExec i s).draws = s.draws := by
  cases i <;> rfl

@[simp] theorem afterExec_hostCopy (i : Instr) (req : Request) (s : State) :
    (afterExec i s).hostCopy req = s.hostCopy req := hostCopy_congr req (afterExec_draws i s)

/-- Closing a transaction whose instruction has left its result word. -/
theorem finish_next (req : Request) (s : State) (r : Word) (h : s.res = some r) :
    finish req (.next s) = .next (s.complete req (req.succeed r)) := by
  simp [finish, h]

/-- A command word that decodes is performed and closed. -/
theorem runCommand_ok (req : Request) (w : Word) (i : Instr) (s : State) (h : decodeCmd w = .ok i) :
    runCommand req w s = .next ((afterExec i s).complete req (req.succeed (resultOf i))) := by
  simp [runCommand, h, exec_eq, finish_next req _ _ (afterExec_res i s)]

/-- A reserved command word is refused. -/
theorem runCommand_reserved (req : Request) (w : Word) (s : State)
    (h : decodeCmd w = .error .reservedEncodeBits) :
    runCommand req w s = .next (s.complete req (.refused .reservedEncodeBits)) := by
  simp [runCommand, h]

/-- The command word a transaction brings to the core, if it brings one. -/
def coreWord : Request → Option Word
  | .cmd w => some w
  | .call op v =>
    match validate op v with
    | .pass w => some w
    | .raise _ => none
    | .refuse _ => none

/-- The instruction a transaction has the core perform, if it has one performed. -/
def coreInstr (req : Request) : Option Instr :=
  match coreWord req with
  | some w => match decodeCmd w with
    | .ok i => some i
    | .error _ => none
  | none => none

/-- What a transaction's instruction, if it has one performed, leaves before the transaction is
closed. -/
def afterCore (req : Request) (s : State) : State :=
  match coreInstr req with
  | some i => afterExec i s
  | none => s

@[simp] theorem afterCore_some (req : Request) (i : Instr) (s : State)
    (h : coreInstr req = some i) : afterCore req s = afterExec i s := by simp [afterCore, h]
@[simp] theorem afterCore_none (req : Request) (s : State) (h : coreInstr req = none) :
    afterCore req s = s := by simp [afterCore, h]
@[simp] theorem afterCore_pending (req : Request) (s : State) :
    (afterCore req s).pending = s.pending := by unfold afterCore; split <;> simp
@[simp] theorem afterCore_completed (req : Request) (s : State) :
    (afterCore req s).completed = s.completed := by unfold afterCore; split <;> simp
@[simp] theorem afterCore_refusalMark (req : Request) (s : State) :
    (afterCore req s).refusalMark = s.refusalMark := by unfold afterCore; split <;> simp
@[simp] theorem afterCore_draws (req : Request) (s : State) :
    (afterCore req s).draws = s.draws := by unfold afterCore; split <;> simp

/-- The result word a transaction leaves once it is taken (30_encoding.md R49). -/
@[simp] theorem afterCore_take_res (req : Request) (s : State) (rest : List Request) :
    (afterCore req (s.take rest)).res = (coreInstr req).map resultOf := by
  unfold afterCore; split <;> simp [*]
@[simp] theorem afterCore_hostCopy (r req : Request) (s : State) :
    (afterCore r s).hostCopy req = s.hostCopy req := hostCopy_congr req (afterCore_draws r s)

/-- Everything a transaction can do: it performs its instruction, if it has one, and is closed with the
outcome it alone determines. -/
theorem perform_eq (req : Request) (s : State) :
    perform req s = .next ((afterCore req s).complete req (outcomeOf req)) := by
  have word : ∀ w, coreWord req = some w →
      runCommand req w s = .next ((afterCore req s).complete req (wordOutcome req w)) := by
    intro w hw
    rcases hd : decodeCmd w with e | i
    · cases e
      simp [runCommand_reserved req w s hd, afterCore, coreInstr, hw, hd, wordOutcome]
    · simp [runCommand_ok req w i s hd, afterCore, coreInstr, hw, hd, wordOutcome]
  cases req with
  | cmd w => simpa [perform, outcomeOf] using word w rfl
  | call op v =>
    rcases hv : validate op v with c | r | w
    · simp [perform, followVerdict, hv, outcomeOf, afterCore, coreInstr, coreWord]
    · simp [perform, followVerdict, hv, outcomeOf, afterCore, coreInstr, coreWord]
    · simpa [perform, followVerdict, hv, outcomeOf] using word w (by simp [coreWord, hv])

/-- A step with a transaction pending takes it, performs it and closes it. -/
theorem step_of_pending {s : State} {req : Request} {rest : List Request}
    (h : s.pending = req :: rest) :
    step s = .next ((afterCore req (s.take rest)).complete req (outcomeOf req)) := by
  simp [step, h, perform_eq]

/-- A transaction succeeds exactly when it has an instruction performed. -/
theorem outcomeOf_isSuccess (req : Request) :
    (outcomeOf req).isSuccess = (coreInstr req).isSome := by
  cases req with
  | cmd w =>
    simp only [outcomeOf, wordOutcome, coreInstr, coreWord]
    rcases decodeCmd w with ⟨⟨⟩⟩ | i <;> rfl
  | call op v =>
    simp only [outcomeOf, wordOutcome, coreInstr, coreWord]
    cases validate op v with
    | pass w => simp only; rcases decodeCmd w with ⟨⟨⟩⟩ | i <;> rfl
    | raise c => rfl
    | refuse r => rfl

end Sys2Proof.Machine
end

