-- ==== Sys2Proof/Laws/Run.lean ====
section
/-! SUPPORT. Runs of several steps, for any machine of the host's interface and for this one. -/

namespace Sys2Proof.Machine

/-- A run goes on from the state its first step answers. -/
theorem coreRun_succ (M : Host.Core) (n : Nat) (s t : M.State) (h : M.step s = .next t) :
    M.run (n + 1) s = M.run n t := by simp only [Host.Core.run, h]

/-- What every step keeps, every run keeps. -/
theorem coreRun_induction (M : Host.Core) {P : M.State → Prop}
    (keep : ∀ s t, P s → M.step s = .next t → P t) :
    ∀ (n : Nat) (s t : M.State), P s → M.run n s = .next t → P t := by
  intro n
  induction n with
  | zero =>
    intro s t hs h
    simp only [Host.Core.run, Host.Outcome.next.injEq] at h
    exact h ▸ hs
  | succ n ih =>
    intro s t hs h
    cases hstep : M.step s with
    | next u => exact ih u t (keep s u hs hstep) (coreRun_succ M n s u hstep ▸ h)
    | fault f => simp only [Host.Core.run, hstep] at h; cases h
    | refused r => simp only [Host.Core.run, hstep] at h; cases h

/-- A run of this machine goes on from the state its first step answers. -/
theorem run_succ_of_next (n : Nat) (s t : State) (h : step s = .next t) :
    Sys2Proof.core.run (n + 1) s = Sys2Proof.core.run n t :=
  coreRun_succ Sys2Proof.core n s t h

/-- What every step of this machine keeps, every run of it keeps. -/
theorem run_induction {P : State → Prop} (keep : ∀ s t, P s → step s = .next t → P t)
    (n : Nat) (s t : State) (hs : P s) (h : Sys2Proof.core.run n s = .next t) : P t :=
  coreRun_induction Sys2Proof.core keep n s t hs h

end Sys2Proof.Machine
end

