-- ==== Sys2Proof/Tests/Slice0.lean ====
section
/-! SUPPORT. The model's own tests, every expected result taken from the spec, and a witness for the
hypotheses of each statement that has some. -/

namespace Sys2Proof.Tests

open Sys2Proof Sys2Proof.Machine

/-! ## Well-formedness: each check refuses an ill-formed term -/

/-- 95_test_vectors.md V19: RSV = 001. -/
theorem test_cmdWf_refuses_reserved_bits : cmdWf 0x18#8 = false := by decide
/-- 95_test_vectors.md V5: elements other than 0 and 1. -/
theorem test_hostWf_refuses_non_binary :
    HostValue.wf 4 (.list [.int 1, .int 2, .int 3, .int 4]) = false := by decide
/-- 95_test_vectors.md V7: three elements. -/
theorem test_hostWf_refuses_length : HostValue.wf 4 (.list [.int 0, .int 1, .int 1]) = false := by
  decide
/-- 95_test_vectors.md V18: an element that is no integer. -/
theorem test_hostWf_refuses_nonInt :
    HostValue.wf 4 (.list [.nonInt "x", .int 0, .int 0, .int 0]) = false := by decide
/-- 95_test_vectors.md V6, V18: values that are no list. -/
theorem test_hostWf_refuses_shapes : HostValue.wf 4 (.str "string") = false ∧
    HostValue.wf 4 (.otherSeq "(1,0,0,0)") = false ∧ HostValue.wf 4 (.nonSeq "5") = false := by decide
/-- 95_test_vectors.md V1, V3 and 30_encoding.md R52: well-formed terms pass. -/
theorem test_wf_accepts : cmdWf 0x08#8 = true ∧ cmdWf 0x96#8 = true ∧
    HostValue.wf 4 (.list [.int 1, .int 0, .int 0, .int 0]) = true ∧
    Instr.wf (.encode 0x8#4) = true ∧ Instr.wf (.decode 0x16#7) = true := by decide

/-! ## Decoding: words written out from 30_encoding.md R47, R48, R56 -/

theorem test_decode_encode_word : decodeCmd 0b00001000#8 = .ok (.encode 0b1000#4) := by decide
theorem test_decode_decode_word : decodeCmd 0b10010110#8 = .ok (.decode 0b0010110#7) := by decide
theorem test_decode_reserved_word : decodeCmd 0b00011000#8 = .error .reservedEncodeBits := by decide
theorem test_encode_words : encodeCmd (.encode 0b1000#4) = 0x08#8 ∧
    encodeCmd (.decode 0b0010110#7) = 0x96#8 := by decide
theorem test_table_words : decodeTableWord 8 0x00 = some (.encode 0x0#4) ∧
    decodeTableWord 8 0x80 = some (.decode 0x00#7) ∧ decodeTableWord 8 0x10 = none := by decide
/-- 30_encoding.md section 5: no word matches two rows, and the words that match none are reserved. -/
theorem test_opcode_rows_disjoint : ∀ w : Word,
    (opcodeTable.filter (·.matches w)).length = if cmdWf w then 1 else 0 := by decide

/-! ## The two units against the spec's own tables -/

/-- 95_test_vectors.md V11, all 16 data words. -/
theorem test_encodeFn_V11 : (List.range 16).map (fun n => encodeFn (BitVec.ofNat 4 n)) =
    [0x00#7, 0x69#7, 0x2A#7, 0x43#7, 0x4C#7, 0x25#7, 0x66#7, 0x0F#7,
      0x70#7, 0x19#7, 0x5A#7, 0x33#7, 0x3C#7, 0x55#7, 0x16#7, 0x7F#7] := by decide
/-- 95_test_vectors.md V12, columns Q and e, all 128 received words. -/
theorem test_decoder_V12 : (List.range 128).map (fun n => decodeFn (BitVec.ofNat 7 n)) =
    [0x0#4, 0x0#4, 0x0#4, 0x3#4, 0x0#4, 0x5#4, 0xE#4, 0x7#4, 0x0#4, 0x9#4, 0x2#4, 0x7#4, 0x4#4, 0x7#4, 0x7#4, 0x7#4] ++
    [0x0#4, 0x9#4, 0xE#4, 0xB#4, 0xE#4, 0xD#4, 0xE#4, 0xE#4, 0x9#4, 0x9#4, 0xA#4, 0x9#4, 0xC#4, 0x9#4, 0xE#4, 0x7#4] ++
    [0x0#4, 0x5#4, 0x2#4, 0xB#4, 0x5#4, 0x5#4, 0x6#4, 0x5#4, 0x2#4, 0x1#4, 0x2#4, 0x2#4, 0xC#4, 0x5#4, 0x2#4, 0x7#4] ++
    [0x8#4, 0xB#4, 0xB#4, 0xB#4, 0xC#4, 0x5#4, 0xE#4, 0xB#4, 0xC#4, 0x9#4, 0x2#4, 0xB#4, 0xC#4, 0xC#4, 0xC#4, 0xF#4] ++
    [0x0#4, 0x3#4, 0x3#4, 0x3#4, 0x4#4, 0xD#4, 0x6#4, 0x3#4, 0x4#4, 0x1#4, 0xA#4, 0x3#4, 0x4#4, 0x4#4, 0x4#4, 0x7#4] ++
    [0x8#4, 0xD#4, 0xA#4, 0x3#4, 0xD#4, 0xD#4, 0xE#4, 0xD#4, 0xA#4, 0x9#4, 0xA#4, 0xA#4, 0x4#4, 0xD#4, 0xA#4, 0xF#4] ++
    [0x8#4, 0x1#4, 0x6#4, 0x3#4, 0x6#4, 0x5#4, 0x6#4, 0x6#4, 0x1#4, 0x1#4, 0x2#4, 0x1#4, 0x4#4, 0x1#4, 0x6#4, 0xF#4] ++
    [0x8#4, 0x8#4, 0x8#4, 0xB#4, 0x8#4, 0xD#4, 0x6#4, 0xF#4, 0x8#4, 0x1#4, 0xA#4, 0xF#4, 0xC#4, 0xF#4, 0xF#4, 0xF#4] ∧
    (List.range 128).map (fun n => (decNets (BitVec.ofNat 7 n)).err) =
    [0, 7, 6, 1, 5, 2, 3, 4, 4, 3, 2, 5, 1, 6, 7, 0] ++
    [3, 4, 5, 2, 6, 1, 0, 7, 7, 0, 1, 6, 2, 5, 4, 3] ++
    [2, 5, 4, 3, 7, 0, 1, 6, 6, 1, 0, 7, 3, 4, 5, 2] ++
    [1, 6, 7, 0, 4, 3, 2, 5, 5, 2, 3, 4, 0, 7, 6, 1] ++
    [1, 6, 7, 0, 4, 3, 2, 5, 5, 2, 3, 4, 0, 7, 6, 1] ++
    [2, 5, 4, 3, 7, 0, 1, 6, 6, 1, 0, 7, 3, 4, 5, 2] ++
    [3, 4, 5, 2, 6, 1, 0, 7, 7, 0, 1, 6, 2, 5, 4, 3] ++
    [0, 7, 6, 1, 5, 2, 3, 4, 4, 3, 2, 5, 1, 6, 7, 0] := by
  decide +kernel

/-! ## One step -/

/-- A state with one transaction issued, after power-up. -/
def issued (req : Request) : State := { State.reset with pending := [req] }

/-- The outcome a step gives the transaction issued. -/
def outcomeAfter (req : Request) : Option TxOutcome :=
  match step (issued req) with
  | .next t => t.completed.getLast?.map (·.outcome)
  | .fault _ => none
  | .refused _ => none

/-- A list of integers as a host value. -/
def ints (l : List Int) : HostValue := .list (l.map .int)

/-- 95_test_vectors.md V1. -/
theorem test_step_V1 : outcomeAfter (.call .encode (ints [1, 0, 0, 0])) =
    some (.values [true, true, true, false, false, false, false]) := by decide
/-- 95_test_vectors.md V4. -/
theorem test_step_V4 : outcomeAfter (.call .decode (ints [1, 0, 1, 0, 1, 1, 0])) =
    some (.values [true, true, true, false]) := by decide

/-- 95_test_vectors.md V5, V8: a non-binary element. -/
theorem test_step_not_binary :
    outcomeAfter (.call .encode (ints [1, 2, 3, 4])) =
      some (.error ⟨.valueKind, 2, "Input is not binary."⟩) ∧
    outcomeAfter (.call .decode (ints [1, 2, 3, 4, 5, 6, 7])) =
      some (.error ⟨.valueKind, 2, "Input is not binary."⟩) := by decide
/-- 95_test_vectors.md V6, V9, V18: a value that is no list. -/
theorem test_step_not_list :
    outcomeAfter (.call .encode (.str "string")) =
      some (.error ⟨.typeKind, 1, "Input is not a list."⟩) ∧
    outcomeAfter (.call .decode (.str "0010110")) =
      some (.error ⟨.typeKind, 1, "Input is not a list."⟩) ∧
    outcomeAfter (.call .encode (.nonSeq "5")) =
      some (.error ⟨.typeKind, 1, "Input is not a list."⟩) := by decide
/-- 95_test_vectors.md V7, V10, V18: a wrong length. -/
theorem test_step_length :
    outcomeAfter (.call .encode (ints [0, 1, 1])) =
      some (.error ⟨.valueKind, 3, "Input does not contain 4-bits."⟩) ∧
    outcomeAfter (.call .encode (ints [0, 1, 0, 1, 0, 1, 0])) =
      some (.error ⟨.valueKind, 3, "Input does not contain 4-bits."⟩) ∧
    outcomeAfter (.call .decode (ints [0, 0, 0, 1])) =
      some (.error ⟨.valueKind, 4, "Input list does not contain 7 digits."⟩) ∧
    outcomeAfter (.call .decode (ints [0, 0, 0, 0, 0, 0, 0, 0])) =
      some (.error ⟨.valueKind, 4, "Input list does not contain 7 digits."⟩) := by decide
/-- 95_test_vectors.md V18: the order of the checks, and the refusals at their places. -/
theorem test_step_order :
    outcomeAfter (.call .encode (ints [0, 1, 1, 2, 0])) =
      some (.error ⟨.valueKind, 2, "Input is not binary."⟩) ∧
    outcomeAfter (.call .encode (.list [.nonInt "x", .int 2])) =
      some (.error ⟨.valueKind, 2, "Input is not binary."⟩) ∧
    outcomeAfter (.call .encode (.list [.nonInt "x", .int 0])) =
      some (.refused .nonIntegerElement) ∧
    outcomeAfter (.call .encode (.otherSeq "(1,0,0,0)")) = some (.refused .nonListSequence) := by decide
/-- 95_test_vectors.md P5: a reserved word is refused, there is no result word, and the mark is set. -/
theorem test_step_reserved : outcomeAfter (.cmd 0x18#8) = some (.refused .reservedEncodeBits) ∧
    (match step (issued (.cmd 0x18#8)) with
      | .next t => t.refusalMark && t.res.isNone && t.pending.isEmpty
      | .fault _ => false
      | .refused _ => false) = true := by decide
/-- The word a host issues is the next one performed (30_encoding.md R56: `encode [1,0,0,0]`). -/
theorem test_withFetchWord_runs : (match step (State.reset.withFetchWord 8 0x08) with
      | .next t => decide (t.res = some 0x70#8 ∧ t.encD = some 0x8#4 ∧ t.decR = none)
      | .fault _ => false
      | .refused _ => false) = true := by decide

/-! ## Assembler text (30_encoding.md R55, R56; 95_test_vectors.md P1, P5, V18) -/

theorem test_text_of_words :
    String.ofList (statementText (disassemble 0x08#8)) = "encode [1, 0, 0, 0]" ∧
    String.ofList (statementText (disassemble 0x96#8)) = "decode [0, 0, 1, 0, 1, 1, 0]" ∧
    String.ofList (statementText (disassemble 0x18#8)) = "cmd 0x18" := by decide
theorem test_parse_lists :
    parseStatement "encode [1,0,0,0]          ; CMD 0x08".toList =
      some (.call .encode (ints [1, 0, 0, 0])) ∧
    parseStatement "encode [-1,0,0,0]".toList = some (.call .encode (ints [-1, 0, 0, 0])) ∧
    parseStatement "decode []".toList = some (.call .decode (ints [])) ∧
    parseStatement "encode [1,,0]".toList = none ∧ parseStatement "halt".toList = none := by decide
theorem test_parse_other_values :
    parseStatement "decode \"string\"".toList = some (.call .decode (.str "string")) ∧
    parseStatement "encode (1,0,0,0)".toList = some (.call .encode (.otherSeq "(1,0,0,0)")) ∧
    parseStatement "encode 5".toList = some (.call .encode (.nonSeq "5")) ∧
    parseStatement "cmd 0xD6".toList = some (.cmd 0xD6#8) := by decide
/-- Assembled words, 30_encoding.md R56; a statement that fails validation has none (R55). -/
theorem test_assemble : assemble (.call .encode (ints [1, 0, 0, 0])) = some 0x08#8 ∧
    assemble (.call .decode (ints [0, 0, 1, 0, 1, 1, 0])) = some 0x96#8 ∧
    assemble (.call .decode (ints [0, 0, 0, 1])) = none ∧ assemble (.cmd 0x18#8) = some 0x18#8 := by
  decide

/-! ## Witnesses: the hypotheses of each statement met together -/

/-- A state in which both inputs have settled. -/
def settled : State := { State.reset with encD := some 0x8#4, decR := some 0x56#7 }

theorem test_witness_OutputPortsFollowInputPorts :
    settled.encD = some 0x8#4 ∧ settled.decR = some 0x56#7 ∧
    State.reset.encD = none ∧ State.reset.decR = none := by decide
theorem test_witness_CoverageSetsAreTheTable : (2 < 3) ∧ 4 ∈ parityPos := by decide
theorem test_witness_PackedWordsKeepBitOrder : 1 ≤ 1 ∧ 7 ≤ 7 := by decide
theorem test_witness_ParityTreesMeetTheGeneralRule : [3, 1, 0, 2].Perm [0, 1, 2, 3] := by decide
theorem test_witness_EncodeExecutes : ((0x1#4, 0x69#8) : DataWord × Word) ∈
    [(0x0#4, 0x00#8), (0xF#4, 0x7F#8), (0x8#4, 0x70#8), (0x4#4, 0x4C#8), (0x2#4, 0x2A#8),
      (0x1#4, 0x69#8)] := by decide
theorem test_witness_CodewordHasEvenParity : 2 < 3 := by decide
theorem test_witness_EncodeIsLinearAndInjective :
    ∀ k < 3, xorAll ((coverage k).map (codeBit 0x70#7)) = false := by decide
theorem test_witness_SyndromeTreesAreTheAccumulation :
    [7, 1, 6, 2, 5, 3, 4].Perm [1, 2, 3, 4, 5, 6, 7] := by decide
theorem test_witness_DecoderFlipsOnlyTheErrorPosition :
    (decNets 0x70#7).err = 0 ∧ codeBit (decNets 0x01#7).flip 7 = true := by decide
/-- The error position 0, a parity position and the first data position. -/
theorem test_witness_DecodeExecutes :
    (decNets 0x00#7).err = 0 ∧ (decNets 0x40#7).err = 1 ∧ (decNets 0x20#7).err = 2 ∧
    (decNets 0x08#7).err = 4 ∧
    ((0x56#7, 0x0E#8) : Codeword × Word) ∈
      [(0x00#7, 0x00#8), (0x7F#7, 0x0F#8), (0x56#7, 0x0E#8)] := by decide
theorem test_witness_SyndromeIsTheErrorPattern :
    (∀ p ∈ [1, 7, 7, 3], 1 ≤ p ∧ p ≤ 7) ∧ 1 ≤ 7 ∧ 7 ≤ 7 := by decide
theorem test_witness_SingleErrorIsCorrected : 1 ≤ 1 ∧ 1 ≤ 7 ∧ 7 ≤ 7 := by decide
theorem test_witness_DoubleErrorIsMiscorrected : 1 ≤ 1 ∧ 1 ≤ 7 ∧ 7 ≤ 7 ∧ 1 ≠ 7 := by decide
/-- Three errors whose positions XOR to 000, three whose positions do not, and all seven. -/
theorem test_witness_ThreeOrMoreErrors :
    ([1, 2, 3].Nodup ∧ (∀ p ∈ [1, 2, 3], 1 ≤ p ∧ p ≤ 7) ∧ 3 ≤ [1, 2, 3].length ∧
      [1, 2, 3].foldl (fun acc p => acc ^^^ bin3 p) 0#3 = 0#3) ∧
    ([1, 2, 4].Nodup ∧ (∀ p ∈ [1, 2, 4], 1 ≤ p ∧ p ≤ 7) ∧ 3 ≤ [1, 2, 4].length ∧
      [1, 2, 4].foldl (fun acc p => acc ^^^ bin3 p) 0#3 ≠ 0#3) ∧
    ([1, 2, 3, 4, 5, 6, 7].Nodup ∧ (∀ p ∈ [1, 2, 3, 4, 5, 6, 7], 1 ≤ p ∧ p ≤ 7) ∧
      3 ≤ [1, 2, 3, 4, 5, 6, 7].length) := by decide
theorem test_witness_EightWordsDecodeToEachDataWord :
    0x01#7 ∈ encodeFn 0x0#4 :: positions.map (flipAt (encodeFn 0x0#4)) := by decide
theorem test_witness_TransactionHasNoSideEffect :
    exec (.encode 0x8#4) settled = .next { settled with encD := some 0x8#4, res := some 0x70#8 } ∧
    exec (.decode 0x56#7) settled = .next { settled with decR := some 0x56#7, res := some 0x0E#8 } :=
  ⟨rfl, rfl⟩
theorem test_witness_DecodeOfEncodeIsIdentity :
    (Instr.encode 0xF#4).wf = true ∧ (Instr.decode 0x7F#7).wf = true := by decide
theorem test_witness_EncodeOfDecodeIsIdentity : decodeCmd 0xFF#8 = .ok (.decode 0x7F#7) := by decide
/-- The words at the edges of the three classes (95_test_vectors.md V19). -/
theorem test_witness_CommandWordsDecodeByTheirClass :
    (0x80#8).getLsbD 7 = true ∧
    ((0x0F#8).getLsbD 7 = false ∧ (0x0F#8).extractLsb' 4 3 = 0#3) ∧
    ((0x10#8).getLsbD 7 = false ∧ (0x10#8).extractLsb' 4 3 ≠ 0#3) ∧
    ((0x7F#8).getLsbD 7 = false ∧ (0x7F#8).extractLsb' 4 3 ≠ 0#3) := by decide
theorem test_witness_DisassemblyInvertsAssembly :
    assemble (.call .decode (ints [1, 0, 1, 0, 1, 1, 0])) = some 0xD6#8 ∧
    decodeCmd 0x7F#8 = .error .reservedEncodeBits := by decide
theorem test_witness_StepRunsTheDecodedInstruction :
    (issued (.cmd 0xD6#8)).pending = .cmd 0xD6#8 :: [] ∧
    decodeCmd 0xD6#8 = .ok (.decode 0x56#7) ∧ (Instr.decode 0x56#7).wf = true := by decide
theorem test_witness_HostCallRunsItsCommandWord :
    (issued (.call .encode (ints [1, 0, 0, 0]))).pending = .call .encode (ints [1, 0, 0, 0]) :: [] ∧
    validate .encode (ints [1, 0, 0, 0]) = .pass 0x08#8 := by decide
theorem test_witness_ResultWordHasItsFormat :
    (issued (.cmd (0#4 ++ 0x8#4))).pending = .cmd (0#4 ++ 0x8#4) :: [] ∧
    (issued (.cmd (1#1 ++ 0x56#7))).pending = .cmd (1#1 ++ 0x56#7) :: [] ∧
    (issued (.cmd 0x18#8)).pending = .cmd 0x18#8 :: [] := by decide
/-- A run of two steps from a reserved word answers a state. -/
theorem test_witness_ReservedWordIsRefusedForTheWholeRun :
    (0x18#8).getLsbD 7 = false ∧ (0x18#8).extractLsb' 4 3 ≠ 0#3 ∧
    (issued (.cmd 0x18#8)).pending = .cmd 0x18#8 :: [] ∧
    ∃ u : State, Sys2Proof.core.run (1 + 1) (issued (.cmd 0x18#8)) = .next u :=
  ⟨by decide, by decide, rfl, _, rfl⟩
/-- One host value for each clause, at the edges: the lengths 3 and 5 about 4, the integers -1 and 2
about 0 and 1. -/
theorem test_witness_HostEncodeFollowsItsValidation :
    (issued (.call .encode (.str "string"))).pending = .call .encode (.str "string") :: [] ∧
    (issued (.call .encode (.nonSeq "5"))).pending = .call .encode (.nonSeq "5") :: [] ∧
    (issued (.call .encode (.otherSeq "(1,0,0,0)"))).pending =
      .call .encode (.otherSeq "(1,0,0,0)") :: [] ∧
    (∃ k, Elem.int k ∈ [Elem.int (-1), .int 0, .int 0, .int 0] ∧ k ≠ 0 ∧ k ≠ 1) ∧
    (∃ k, Elem.int k ∈ [Elem.int 2] ∧ k ≠ 0 ∧ k ≠ 1) ∧
    ((∀ k, Elem.int k ∈ [Elem.nonInt "x", .int 1] → k = 0 ∨ k = 1) ∧
      ∃ x, Elem.nonInt x ∈ [Elem.nonInt "x", .int 1]) ∧
    ((∀ e ∈ [Elem.int 0, .int 1, .int 1], e = .int 0 ∨ e = .int 1) ∧
      [Elem.int 0, .int 1, .int 1].length ≠ 4) ∧
    ((∀ e ∈ [Elem.int 0, .int 1, .int 1, .int 0, .int 0], e = .int 0 ∨ e = .int 1) ∧
      [Elem.int 0, .int 1, .int 1, .int 0, .int 0].length ≠ 4) ∧
    ints [1, 0, 0, 0] = .list [.int (true).toInt, .int (false).toInt, .int (false).toInt,
      .int (false).toInt] :=
  ⟨rfl, rfl, rfl, ⟨-1, by decide⟩, ⟨2, by decide⟩, ⟨by simp, "x", by simp⟩, by decide, by decide, rfl⟩
/-- As for ENCODE, with the lengths 6 and 8 about 7. -/
theorem test_witness_HostDecodeFollowsItsValidation :
    (issued (.call .decode (.str "string"))).pending = .call .decode (.str "string") :: [] ∧
    (issued (.call .decode (.otherSeq "(1)"))).pending = .call .decode (.otherSeq "(1)") :: [] ∧
    (∃ k, Elem.int k ∈ [Elem.int 2] ∧ k ≠ 0 ∧ k ≠ 1) ∧
    ((∀ k, Elem.int k ∈ [Elem.nonInt "x"] → k = 0 ∨ k = 1) ∧
      ∃ x, Elem.nonInt x ∈ [Elem.nonInt "x"]) ∧
    ((∀ e ∈ List.replicate 6 (Elem.int 0), e = .int 0 ∨ e = .int 1) ∧
      (List.replicate 6 (Elem.int 0)).length ≠ 7) ∧
    ((∀ e ∈ List.replicate 8 (Elem.int 1), e = .int 0 ∨ e = .int 1) ∧
      (List.replicate 8 (Elem.int 1)).length ≠ 7) ∧
    ints [1, 0, 1, 0, 1, 1, 0] = .list [.int (true).toInt, .int (false).toInt, .int (true).toInt,
      .int (false).toInt, .int (true).toInt, .int (true).toInt, .int (false).toInt] :=
  ⟨rfl, rfl, ⟨2, by decide⟩, ⟨by simp, "x", by simp⟩, by decide, by decide, rfl⟩
theorem test_witness_ErrorsAreTheFourCauses :
    (issued (.call .decode (.str "string"))).pending = .call .decode (.str "string") :: [] := by decide
theorem test_witness_FirstViolationIsReported :
    (∃ k, Elem.int k ∈ [Elem.nonInt "x", .int 2] ∧ k ≠ 0 ∧ k ≠ 1) ∧
    (issued (.call .encode (.list [.nonInt "x", .int 2]))).pending =
      .call .encode (.list [.nonInt "x", .int 2]) :: [] ∧
    ((∀ k, Elem.int k ∈ [Elem.nonInt "x", .int 0] → k = 0 ∨ k = 1) ∧
      ∃ x, Elem.nonInt x ∈ [Elem.nonInt "x", .int 0]) ∧
    (issued (.call .encode (.list [.nonInt "x", .int 0]))).pending =
      .call .encode (.list [.nonInt "x", .int 0]) :: [] ∧
    (issued (.call .encode (.list []))).pending = .call .encode (.list []) :: [] ∧
    (issued (.call .decode (.list []))).pending = .call .decode (.list []) :: [] ∧
    (issued (.call .encode (.otherSeq "(1,0,0,0)"))).pending =
      .call .encode (.otherSeq "(1,0,0,0)") :: [] :=
  ⟨⟨2, by decide⟩, rfl, ⟨by simp, "x", by simp⟩, rfl, rfl, rfl, rfl⟩
/-- 95_test_vectors.md P4: an error, then an ENCODE. -/
theorem test_witness_ErrorLeavesNothingBehind :
    ({ State.reset with pending := [.call .encode (ints [0, 1, 1]), .cmd 0x04#8] } : State).pending =
      .call .encode (ints [0, 1, 1]) :: .cmd 0x04#8 :: [] ∧
    outcomeOf (.call .encode (ints [0, 1, 1])) =
      .error ⟨.valueKind, 3, "Input does not contain 4-bits."⟩ := by decide
theorem test_witness_HostListIsDrawnAfterTheCall :
    (issued (.call .encode (.list []))).pending = .call .encode (.list []) :: [] ∧
    (issued (.cmd 0x08#8)).pending = .cmd 0x08#8 :: [] ∧
    ∀ op l, Request.cmd 0x08#8 ≠ .call op (.list l) := ⟨rfl, rfl, fun _ _ h => by cases h⟩
theorem test_witness_StepIsOneWholeTransaction :
    (issued (.cmd 0x08#8)).pending = .cmd 0x08#8 :: [] := by decide
theorem test_witness_EndOfRunIsStill : settled.pending = [] := by decide
/-- The same transaction after power-up and in a state with inputs settled and a refusal recorded. -/
theorem test_witness_OutcomeDoesNotDependOnTheState :
    (issued (.cmd 0x08#8)).pending = .cmd 0x08#8 :: [] ∧
    ({ settled with pending := [.cmd 0x08#8, .cmd 0x18#8], refusalMark := true } : State).pending =
      .cmd 0x08#8 :: [.cmd 0x18#8] := by decide
theorem test_witness_OrderOfTransactionsDoesNotMatter :
    ({ State.reset with pending := [.cmd 0x08#8, .cmd 0x18#8] } : State).pending.Perm
      ({ settled with pending := [.cmd 0x18#8, .cmd 0x08#8] } : State).pending :=
  List.Perm.swap _ _ _
/-- The invariant holds after power-up with a transaction issued, and the step answers a state. -/
theorem test_witness_StepKeepsTheInvariant : (issued (.cmd 0x08#8)).Inv ∧
    ∃ t, step (issued (.cmd 0x08#8)) = .next t := by
  refine ⟨⟨rfl, ?_, ?_, rfl, ?_⟩, _, rfl⟩ <;> simp [issued, State.reset]
theorem test_witness_HostRoundTripCorrectsOneError :
    (issued (.call .encode (hostBits [true, false, false, false]))).pending =
      .call .encode (hostBits [true, false, false, false]) :: [] ∧
    (issued (.call .decode (hostBits (codeBits (flipAt 0x70#7 7))))).pending =
      .call .decode (hostBits (codeBits (flipAt 0x70#7 7))) :: [] ∧
    1 ≤ 7 ∧ 7 ≤ 7 := by decide

end Sys2Proof.Tests
end

section
/-! The ports and nets of the two units after one instruction: an instruction settles the input of its
own unit, and what the other unit shows is a function of an input that it leaves alone
(00_scope.md R3). -/

namespace Sys2Proof.Machine

section Congruence
variable {s t : State}

/-- All that ENC shows is a function of its own input port. -/
theorem State.encC_congr (h : s.encD = t.encD) : s.encC = t.encC := congrArg (·.map encodeFn) h
theorem State.encNets_congr (h : s.encD = t.encD) : s.encNets = t.encNets :=
  congrArg (·.map Sys2Proof.Machine.encNets) h

/-- All that DEC shows is a function of its own input port. -/
theorem State.decQ_congr (h : s.decR = t.decR) : s.decQ = t.decQ := congrArg (·.map decodeFn) h
theorem State.decNets_congr (h : s.decR = t.decR) : s.decNets = t.decNets :=
  congrArg (·.map Sys2Proof.Machine.decNets) h

end Congruence

section Encode
variable (d : DataWord) (s : State)

@[simp] theorem afterExec_encode_encD : (afterExec (.encode d) s).encD = some d := rfl
@[simp] theorem afterExec_encode_decR : (afterExec (.encode d) s).decR = s.decR := rfl
@[simp] theorem afterExec_encode_encC : (afterExec (.encode d) s).encC = some (encodeFn d) :=
  State.encC_of_settled _ d (afterExec_encode_encD d s)
@[simp] theorem afterExec_encode_decQ : (afterExec (.encode d) s).decQ = s.decQ :=
  State.decQ_congr (afterExec_encode_decR d s)
@[simp] theorem afterExec_encode_decNets : (afterExec (.encode d) s).decNets = s.decNets :=
  State.decNets_congr (afterExec_encode_decR d s)

end Encode

section Decode
variable (c : Codeword) (s : State)

@[simp] theorem afterExec_decode_decR : (afterExec (.decode c) s).decR = some c := rfl
@[simp] theorem afterExec_decode_encD : (afterExec (.decode c) s).encD = s.encD := rfl
@[simp] theorem afterExec_decode_decQ : (afterExec (.decode c) s).decQ = some (decodeFn c) :=
  State.decQ_of_settled _ c (afterExec_decode_decR c s)
@[simp] theorem afterExec_decode_encC : (afterExec (.decode c) s).encC = s.encC :=
  State.encC_congr (afterExec_decode_encD c s)
@[simp] theorem afterExec_decode_encNets : (afterExec (.decode c) s).encNets = s.encNets :=
  State.encNets_congr (afterExec_decode_encD c s)

end Decode

/-- Settles O20: the four states are those the instructions leave. An instruction is transparent to the
other unit's ports, so in either order each port shows what its own unit's instruction settled. -/
theorem unitsShareNoState : Obligations.UnitsShareNoState := by
  intro d c s
  refine ⟨afterExec (.encode d) s, afterExec (.decode c) s,
    afterExec (.decode c) (afterExec (.encode d) s), afterExec (.encode d) (afterExec (.decode c) s),
    exec_eq _ _, exec_eq _ _, exec_eq _ _, exec_eq _ _,
    afterExec_encode_decR d s, afterExec_encode_decQ d s, afterExec_encode_decNets d s,
    afterExec_decode_encD c s, afterExec_decode_encC c s, afterExec_decode_encNets c s, ?_⟩
  simp only [afterExec_encode_encD, afterExec_encode_encC, afterExec_encode_decR,
    afterExec_encode_decQ, afterExec_decode_encD, afterExec_decode_encC, afterExec_decode_decR,
    afterExec_decode_decQ, and_self]

end Sys2Proof.Machine
end

section
/-! What a transaction answers, the block after power-up, its output ports, and the coverage sets
(10_state.md R13, R19, R22, R26, R28). -/

namespace Sys2Proof.Machine

/-- What a step with a transaction pending answers with: the pending list moves on, and the result word
and the recorded outcome are functions of the transaction alone (10_state.md R13). Only the host's own
copy is read from the state. -/
theorem step_answers {s : State} {req : Request} {rest : List Request}
    (h : s.pending = req :: rest) :
    ∃ t, step s = .next t ∧ t.pending = rest ∧ t.res = (coreInstr req).map resultOf ∧
      t.completed = s.completed ++ [⟨req, outcomeOf req, s.hostCopy req⟩] :=
  ⟨_, step_of_pending h, by simp, by simp, by simp⟩

/-- Settles O41: in either state the step answers with the result word of the transaction's instruction
and records `outcomeOf req`, and neither mentions the state. -/
theorem outcomeDoesNotDependOnTheState : Obligations.OutcomeDoesNotDependOnTheState := by
  intro s1 s2 req rest1 rest2 h1 h2
  obtain ⟨t1, hstep1, -, hres1, hcompleted1⟩ := step_answers h1
  obtain ⟨t2, hstep2, -, hres2, hcompleted2⟩ := step_answers h2
  exact ⟨t1, t2, outcomeOf req, s1.hostCopy req, s2.hostCopy req, hstep1, hstep2,
    hres1.trans hres2.symm, hcompleted1, hcompleted2⟩

section Unsettled
variable {s : State}

/-! Before its input has settled a unit shows nothing (70_reset_and_hazards.md R106). -/

@[simp] theorem State.encC_of_unsettled (h : s.encD = none) : s.encC = none := by
  simp [State.encC, h]
@[simp] theorem State.encNets_of_unsettled (h : s.encD = none) : s.encNets = none := by
  simp [State.encNets, h]
@[simp] theorem State.decQ_of_unsettled (h : s.decR = none) : s.decQ = none := by
  simp [State.decQ, h]
@[simp] theorem State.decNets_of_unsettled (h : s.decR = none) : s.decNets = none := by
  simp [State.decNets, h]

end Unsettled

/-- Settles O1: neither input has settled after power-up, so neither unit shows anything; the other
clauses are fields of the state. -/
theorem resetShowsNothing : Obligations.ResetShowsNothing :=
  ⟨rfl, rfl, State.encC_of_unsettled rfl, State.decQ_of_unsettled rfl,
    State.encNets_of_unsettled rfl, State.decNets_of_unsettled rfl, rfl, rfl, rfl, rfl⟩

/-- Settles O2: each clause is what a unit shows with its input settled, in two states with the same
input, or with its input not settled. -/
theorem outputPortsFollowInputPorts : Obligations.OutputPortsFollowInputPorts :=
  ⟨State.encC_of_settled, State.decQ_of_settled,
    fun _ _ h => ⟨State.encC_congr h, State.encNets_congr h⟩,
    fun _ _ h => ⟨State.decQ_congr h, State.decNets_congr h⟩,
    fun _ => State.encC_of_unsettled, fun _ => State.decQ_of_unsettled⟩

/-- A coverage set holds the positions with its bit set (10_state.md R26). -/
theorem mem_coverage {k : Nat} (hk : k < 3) (p : Nat) :
    p ∈ coverage k ↔ p ∈ positions ∧ p.testBit k = true := by
  simp only [coverage, bin3, List.mem_filter, BitVec.getLsbD_ofNat, hk, decide_true,
    Bool.true_and]

/-- Every parity position is a power of two (10_state.md R25). -/
theorem eq_two_pow_of_mem_parityPos : ∀ q ∈ parityPos, ∃ j < 3, q = 2 ^ j := by decide

/-- Every power of two below 8 is a position (10_state.md R25). -/
theorem two_pow_mem_positions : ∀ j < 3, 2 ^ j ∈ positions := by decide

/-- Settles O3: membership is the test of bit `k`, and the only bit set in a parity position `2 ^ j` is
bit `j`; the rest is the table itself. -/
theorem coverageSetsAreTheTable : Obligations.CoverageSetsAreTheTable := by
  refine ⟨rfl, rfl, rfl, fun k hk p => ?_, fun k hk q hq => ?_, by decide⟩
  · rw [mem_coverage hk, Nat.testBit_eq_decide_div_mod_eq, decide_eq_true_iff]
  · obtain ⟨j, hj, rfl⟩ := eq_two_pow_of_mem_parityPos q hq
    simp [mem_coverage hk, two_pow_mem_positions j hj, Nat.testBit_two_pow]

end Sys2Proof.Machine
end

section
/-! A transaction as a whole: what it leaves alone, its one record, and the records of all that are
pending (20_memory.md R38 to R40). -/

namespace Sys2Proof.Machine

/-- Performing an instruction twice is performing it once: both times it settles the same input and
gives the same result word, neither of which it reads (20_memory.md R39). -/
theorem afterExec_idempotent (i : Instr) (s : State) :
    afterExec i (afterExec i s) = afterExec i s := by
  cases i <;> rfl

/-- Settles O21: the next state is `afterExec i s`, whose fields are known. -/
theorem transactionHasNoSideEffect : Obligations.TransactionHasNoSideEffect := by
  intro i s t h
  obtain rfl : afterExec i s = t := Host.Outcome.next.inj ((exec_eq i s).symm.trans h)
  refine ⟨afterExec_pending i s, afterExec_completed i s, afterExec_refusalMark i s,
    afterExec_draws i s, ?_, ?_, ?_⟩
  · rintro d rfl
    exact ⟨afterExec_encode_encD d s, afterExec_encode_decR d s⟩
  · rintro c rfl
    exact ⟨afterExec_decode_decR c s, afterExec_decode_encD c s⟩
  · rw [exec_eq, afterExec_idempotent]

/-- Settles O39: the record is the one `step_answers` gives, with the host's own copy read from the
state. -/
theorem stepIsOneWholeTransaction : Obligations.StepIsOneWholeTransaction := by
  intro s req rest h
  obtain ⟨t, hstep, hpending, -, hcompleted⟩ := step_answers h
  exact ⟨t, s.hostCopy req, hstep, hpending, hcompleted⟩

/-- A step sets the refusal mark where its transaction is refused, and never clears it
(30_encoding.md R53). -/
theorem step_refusalMark {s t : State} {req : Request} {rest : List Request}
    (h : s.pending = req :: rest) (hstep : step s = .next t) :
    t.refusalMark = (s.refusalMark || (outcomeOf req).isRefused) := by
  obtain rfl := Host.Outcome.next.inj ((step_of_pending h).symm.trans hstep)
  simp

/-- A run of all pending transactions adds one record for each of them, in order, with the outcome the
transaction alone determines, and marks the run where one of them is refused
(70_reset_and_hazards.md R112, 30_encoding.md R53). -/
theorem run_of_pending (s : State) :
    ∃ t new, Sys2Proof.core.run s.pending.length s = .next t ∧ t.pending = [] ∧
      t.completed = s.completed ++ new ∧
      new.map (fun c => (c.request, c.outcome)) =
        s.pending.map (fun req => (req, outcomeOf req)) ∧
      t.refusalMark = (s.refusalMark || s.pending.any fun req => (outcomeOf req).isRefused) := by
  induction hp : s.pending generalizing s with
  | nil => exact ⟨s, [], rfl, hp, by simp⟩
  | cons req rest ih =>
    obtain ⟨u, hstep, hpending, -, hcompleted⟩ := step_answers hp
    obtain ⟨t, new, hrun, hdone, hnew, houtcomes, hmark⟩ := ih u hpending
    refine ⟨t, ⟨req, outcomeOf req, s.hostCopy req⟩ :: new, ?_, hdone, ?_, ?_, ?_⟩
    · rwa [List.length_cons, run_succ_of_next _ s u hstep]
    · rw [hnew, hcompleted, List.append_assoc, List.singleton_append]
    · rw [List.map_cons, List.map_cons, houtcomes]
    · rw [hmark, step_refusalMark hp hstep, List.any_cons, Bool.or_assoc]

/-- Settles O43: the new records and the mark are functions of the pending list alone, and the two
pending lists are permutations of each other. -/
theorem orderOfTransactionsDoesNotMatter : Obligations.OrderOfTransactionsDoesNotMatter := by
  intro s1 s2 hperm
  obtain ⟨t1, new1, hrun1, -, hnew1, houtcomes1, hmark1⟩ := run_of_pending s1
  obtain ⟨t2, new2, hrun2, -, hnew2, houtcomes2, hmark2⟩ := run_of_pending s2
  refine ⟨t1, t2, new1, new2, hrun1, hrun2, hnew1, hnew2, ?_, fun hmarks => ?_⟩
  · rw [houtcomes1, houtcomes2]
    exact hperm.map _
  · rw [hmark1, hmark2, hmarks, hperm.any_eq]

end Sys2Proof.Machine
end

section
/-! The order of the bits in packed words (20_memory.md R33, R34): an index counts from the most
significant bit, so a packed word reads as the binary numeral of its list. -/

namespace Sys2Proof.Machine

theorem dataBit_eq_getMsbD (d : DataWord) (i : Nat) : dataBit d i = d.getMsbD i := rfl

/-- Positions count from 1. -/
theorem codeBit_succ (c : Codeword) (i : Nat) : codeBit c (i + 1) = c.getMsbD i := by
  simp [codeBit, BitVec.getMsbD]

theorem codeBit_eq_getLsbD (c : Codeword) {p : Nat} (h1 : 1 ≤ p) (h7 : p ≤ 7) :
    codeBit c p = c.getLsbD (7 - p) := by simp [codeBit, h1, h7]

theorem toNat_ofBoolListBE_nil : (BitVec.ofBoolListBE []).toNat = 0 := rfl

/-- The first bit of a packed list has the weight of all bits after it and one more. -/
theorem toNat_ofBoolListBE_cons (b : Bit) (bs : List Bit) :
    (BitVec.ofBoolListBE (b :: bs)).toNat =
      2 ^ bs.length * b.toNat + (BitVec.ofBoolListBE bs).toNat := by
  rw [BitVec.ofBoolListBE, BitVec.toNat_cons', Nat.shiftLeft_eq, Nat.mul_comm]

section PackData
variable (d0 d1 d2 d3 : Bit)

theorem dataBit_packData (i : Nat) :
    dataBit (packData d0 d1 d2 d3) i = [d0, d1, d2, d3].getD i false := by
  rw [dataBit_eq_getMsbD, packData]
  exact BitVec.getMsbD_ofBoolListBE

theorem dataBits_packData : dataBits (packData d0 d1 d2 d3) = [d0, d1, d2, d3] := by
  simp [dataBits, dataBit_packData]

theorem toNat_packData :
    (packData d0 d1 d2 d3).toNat = 8 * d0.toNat + 4 * d1.toNat + 2 * d2.toNat + d3.toNat := by
  simp [packData, toNat_ofBoolListBE_cons, toNat_ofBoolListBE_nil, Nat.add_assoc]

end PackData

section PackCode
variable (c1 c2 c3 c4 c5 c6 c7 : Bit)

theorem codeBit_packCode (i : Nat) :
    codeBit (packCode c1 c2 c3 c4 c5 c6 c7) (i + 1) =
      [c1, c2, c3, c4, c5, c6, c7].getD i false := by
  rw [codeBit_succ, packCode]
  exact BitVec.getMsbD_ofBoolListBE

theorem codeBits_packCode :
    codeBits (packCode c1 c2 c3 c4 c5 c6 c7) = [c1, c2, c3, c4, c5, c6, c7] := by
  simp [codeBits, codeBit_packCode]

theorem toNat_packCode :
    (packCode c1 c2 c3 c4 c5 c6 c7).toNat = 64 * c1.toNat + 32 * c2.toNat + 16 * c3.toNat +
      8 * c4.toNat + 4 * c5.toNat + 2 * c6.toNat + c7.toNat := by
  simp [packCode, toNat_ofBoolListBE_cons, toNat_ofBoolListBE_nil, Nat.add_assoc]

end PackCode

/-- Settles O4: the lists and the values are those of the lemmas above, and a single bit is read off the
packed list. -/
theorem packedWordsKeepBitOrder : Obligations.PackedWordsKeepBitOrder := by
  refine ⟨fun d0 d1 d2 d3 => ⟨dataBits_packData d0 d1 d2 d3, ?_, ?_, ?_, ?_,
      toNat_packData d0 d1 d2 d3⟩,
    fun c1 c2 c3 c4 c5 c6 c7 => ⟨codeBits_packCode c1 c2 c3 c4 c5 c6 c7,
      fun _ => codeBit_eq_getLsbD _, toNat_packCode c1 c2 c3 c4 c5 c6 c7⟩, rfl⟩
  all_goals exact BitVec.getLsbD_ofBoolListBE

end Sys2Proof.Machine
end

section
/-! Command words: the fields of a word, the decoder by its three lines, and decoding and encoding as
inverses (30_encoding.md R46 to R48, R51, R52). -/

namespace Sys2Proof.Machine

section Fields
variable (d : DataWord) (c : Codeword)

/-! What each field of an instruction's command word holds (30_encoding.md R47, R48). -/

@[simp] theorem cmdOp_encodeCmd_encode : cmdOp (encodeCmd (.encode d)) = false :=
  BitVec.getLsbD_append.trans rfl
@[simp] theorem cmdRsv_encodeCmd_encode : cmdRsv (encodeCmd (.encode d)) = 0#3 :=
  BitVec.extractLsb'_append_eq_of_le (le_refl 4)
@[simp] theorem cmdData_encodeCmd_encode : cmdData (encodeCmd (.encode d)) = d :=
  BitVec.extractLsb'_append_eq_right
@[simp] theorem cmdOp_encodeCmd_decode : cmdOp (encodeCmd (.decode c)) = true :=
  BitVec.getLsbD_append.trans rfl
@[simp] theorem cmdCode_encodeCmd_decode : cmdCode (encodeCmd (.decode c)) = c :=
  BitVec.extractLsb'_append_eq_right

end Fields

/-- A command word is its operation bit and its other seven bits (30_encoding.md R46). -/
theorem word_eq_of_op_code {v w : Word} (hop : cmdOp v = cmdOp w) (hcode : cmdCode v = cmdCode w) :
    v = w := by
  refine BitVec.eq_of_getLsbD_eq fun i hi => ?_
  rcases Nat.lt_succ_iff_lt_or_eq.1 hi with hlow | rfl
  · have hbit := congrArg (BitVec.getLsbD · i) hcode
    simpa [cmdCode, hlow] using hbit
  · exact hop

/-- The seven bits below the operation bit are the reserved field and the data field
(30_encoding.md R47). -/
theorem cmdCode_eq_rsv_append_data (w : Word) : cmdCode w = cmdRsv w ++ cmdData w :=
  (BitVec.extractLsb'_append_extractLsb'_eq_extractLsb' (start₁ := 0) (len₁ := 4) rfl).symm

section Lines
variable {w : Word}

/-! The three lines of `decode_cmd` (30_encoding.md R51). -/

theorem decodeCmd_of_op (hop : cmdOp w = true) : decodeCmd w = .ok (.decode (cmdCode w)) := by
  simp [decodeCmd, hop]
theorem decodeCmd_of_rsv_zero (hop : cmdOp w = false) (hrsv : cmdRsv w = 0#3) :
    decodeCmd w = .ok (.encode (cmdData w)) := by simp [decodeCmd, hop, hrsv]
theorem decodeCmd_of_rsv_ne_zero (hop : cmdOp w = false) (hrsv : cmdRsv w ≠ 0#3) :
    decodeCmd w = .error .reservedEncodeBits := by simp [decodeCmd, hop, hrsv]

end Lines

/-- Every word falls under one of the three lines (30_encoding.md R51). -/
theorem decodeCmd_cases (w : Word) :
    (cmdOp w = true ∧ decodeCmd w = .ok (.decode (cmdCode w))) ∨
    (cmdOp w = false ∧ cmdRsv w = 0#3 ∧ decodeCmd w = .ok (.encode (cmdData w))) ∨
    (cmdOp w = false ∧ cmdRsv w ≠ 0#3 ∧ decodeCmd w = .error .reservedEncodeBits) := by
  cases hop : cmdOp w with
  | true => exact .inl ⟨rfl, decodeCmd_of_op hop⟩
  | false =>
    by_cases hrsv : cmdRsv w = 0#3
    · exact .inr (.inl ⟨rfl, hrsv, decodeCmd_of_rsv_zero hop hrsv⟩)
    · exact .inr (.inr ⟨rfl, hrsv, decodeCmd_of_rsv_ne_zero hop hrsv⟩)

/-- The words that are not well formed are those of the third line (30_encoding.md R52). -/
theorem cmdWf_eq_false_iff (w : Word) : cmdWf w = false ↔ cmdOp w = false ∧ cmdRsv w ≠ 0#3 := by
  simp [cmdWf, cmdOp, cmdRsv]

/-- The words that do not decode are those that are not well formed (30_encoding.md R52). -/
theorem decodeCmd_eq_error_iff (w : Word) (e : DecodeReject) :
    decodeCmd w = .error e ↔ cmdWf w = false := by
  cases e
  rw [cmdWf_eq_false_iff]
  rcases decodeCmd_cases w with ⟨hop, hd⟩ | ⟨hop, hrsv, hd⟩ | ⟨hop, hrsv, hd⟩
  · simp [hop, hd]
  · simp [hrsv, hd]
  · simp [hop, hrsv, hd]

theorem cmdWf_of_decodeCmd_ok {w : Word} {i : Instr} (h : decodeCmd w = .ok i) : cmdWf w = true := by
  by_contra hwf
  have herror := (decodeCmd_eq_error_iff w .reservedEncodeBits).2 (Bool.eq_false_of_not_eq_true hwf)
  simp [h] at herror

@[simp] theorem decodeCmd_encodeCmd (i : Instr) : decodeCmd (encodeCmd i) = .ok i := by
  cases i with
  | encode d => simp [decodeCmd_of_rsv_zero]
  | decode c => simp [decodeCmd_of_op]

/-- A word that decodes is the word of its instruction: they agree in every field. -/
theorem encodeCmd_of_decodeCmd {w : Word} {i : Instr} (h : decodeCmd w = .ok i) :
    encodeCmd i = w := by
  rcases decodeCmd_cases w with ⟨hop, hd⟩ | ⟨hop, hrsv, hd⟩ | ⟨_, _, hd⟩
  · obtain rfl := Except.ok.inj (hd.symm.trans h)
    exact word_eq_of_op_code (by simp [hop]) (by simp)
  · obtain rfl := Except.ok.inj (hd.symm.trans h)
    exact word_eq_of_op_code (by simp [hop]) (by simp [cmdCode_eq_rsv_append_data, hrsv])
  · simp [hd] at h

/-- All 8 bits of a table word are a command word (30_encoding.md R54). -/
theorem decodeTableWord_toNat (w : Word) : decodeTableWord 8 w.toNat = (decodeCmd w).toOption := by
  have hword : BitVec.ofNat 8 (w.toNat % 2 ^ 8) = w := by
    rw [Nat.mod_eq_of_lt w.isLt, BitVec.ofNat_toNat, BitVec.setWidth_eq]
  simp only [decodeTableWord, le_refl, if_true, hword]
  cases decodeCmd w <;> rfl

/-- Settles O22: the fields of an instruction's command word choose its own line of the decoder and hold
its operand. -/
theorem decodeOfEncodeIsIdentity : Obligations.DecodeOfEncodeIsIdentity := by
  intro i _
  have hdecode := decodeCmd_encodeCmd i
  exact ⟨hdecode, cmdWf_of_decodeCmd_ok hdecode, by rw [decodeTableWord_toNat, hdecode]; rfl⟩

/-- Every instruction is well formed (40_encoder.md R64, 41_decoder.md R73). -/
theorem instr_wf_eq_true (i : Instr) : i.wf = true := by cases i <;> rfl

/-- Settles O23: a word is determined by its fields, and a word is rejected exactly in the third line. -/
theorem encodeOfDecodeIsIdentity : Obligations.EncodeOfDecodeIsIdentity :=
  ⟨fun _ i h => ⟨encodeCmd_of_decodeCmd h, instr_wf_eq_true i⟩, decodeCmd_eq_error_iff⟩

end Sys2Proof.Machine
end

section
/-! What a step can do, said as an inversion, and what every step keeps: the refusal mark and the
invariant of a run's state (30_encoding.md R49, R53; 10_state.md R13, R22). -/

namespace Sys2Proof.Machine

theorem step_of_no_pending {s : State} (h : s.pending = []) : step s = .next s := by
  simp [step, h]

/-- A step that answers a next state has left the state as it is, with nothing pending, or has taken,
performed and closed the next transaction. -/
theorem step_cases {s t : State} (hstep : step s = .next t) :
    (s.pending = [] ∧ t = s) ∨
    ∃ req rest, s.pending = req :: rest ∧
      t = (afterCore req (s.take rest)).complete req (outcomeOf req) := by
  cases hp : s.pending with
  | nil => exact .inl ⟨rfl, Host.Outcome.next.inj (hstep.symm.trans (step_of_no_pending hp))⟩
  | cons req rest =>
    exact .inr ⟨req, rest, rfl, Host.Outcome.next.inj (hstep.symm.trans (step_of_pending hp))⟩

section Complete
variable (s : State) (req : Request) (o : TxOutcome)

/-! Closing a transaction moves no port. -/

@[simp] theorem State.complete_encC : (s.complete req o).encC = s.encC := rfl
@[simp] theorem State.complete_decQ : (s.complete req o).decQ = s.decQ := rfl

/-- The latest transaction is the one just closed. -/
@[simp] theorem State.complete_lastSucceeded :
    (s.complete req o).lastSucceeded = o.isSuccess := by
  simp [State.lastSucceeded]

/-- A copy is drawn exactly for a passed list (60_exceptions.md R104). -/
@[simp] theorem State.hostCopy_isSome : (s.hostCopy req).isSome = req.passedList.isSome := by
  unfold State.hostCopy
  cases req.passedList <;> rfl

end Complete

/-- An instruction's result word is its own unit's output, zero-extended (30_encoding.md R49). -/
theorem resultOf_is_output (i : Instr) (s : State) :
    (afterExec i s).encC.map zext8 = some (resultOf i) ∨
      (afterExec i s).decQ.map zext8 = some (resultOf i) := by
  cases i with
  | encode d => exact .inl (by rw [afterExec_encode_encC]; rfl)
  | decode c => exact .inr (by rw [afterExec_decode_decQ]; rfl)

/-- The next transaction, taken, performed and closed, keeps the invariant. -/
theorem State.Inv.complete {s : State} (h : s.Inv) (req : Request) (rest : List Request) :
    ((afterCore req (s.take rest)).complete req (outcomeOf req)).Inv where
  mark_agrees := by simp [h.mark_agrees]
  outcomes_agree := by simpa [or_imp, forall_and] using h.outcomes_agree
  copies_agree := by simpa [or_imp, forall_and] using h.copies_agree
  result_agrees := by simp [outcomeOf_isSuccess]
  result_is_output := by
    intro r hr
    rw [State.complete_res, afterCore_take_res, Option.map_eq_some_iff] at hr
    obtain ⟨i, hi, rfl⟩ := hr
    simpa [hi] using resultOf_is_output i (s.take rest)

/-- Settles O45: a step changes nothing or closes the next transaction. -/
theorem stepKeepsTheInvariant : Obligations.StepKeepsTheInvariant := by
  intro s t hinv hstep
  rcases step_cases hstep with ⟨-, rfl⟩ | ⟨req, rest, -, rfl⟩
  · exact hinv
  · exact hinv.complete req rest

end Sys2Proof.Machine
end

section
/-! One step of a raw command word: the decoded instruction with its result word, or a refusal, and no
result word where the core is not reached (30_encoding.md R45, R49, R51, R53). -/

namespace Sys2Proof.Machine

/-- Closing a raw command word with its result word adds the record and nothing else: nothing is drawn,
and the mark stays. -/
theorem complete_cmd_result (s : State) (w r : Word) :
    s.complete (.cmd w) (.result r) =
      { s with completed := s.completed ++ [⟨.cmd w, .result r, none⟩] } := by
  simp [State.complete, State.hostCopy, Request.drawCount, Request.passedList]

theorem coreInstr_cmd_of_ok {w : Word} {i : Instr} (h : decodeCmd w = .ok i) :
    coreInstr (.cmd w) = some i := by simp [coreInstr, coreWord, h]
theorem coreInstr_cmd_of_error {w : Word} {e : DecodeReject} (h : decodeCmd w = .error e) :
    coreInstr (.cmd w) = none := by simp [coreInstr, coreWord, h]
theorem outcomeOf_cmd_of_ok {w : Word} {i : Instr} (h : decodeCmd w = .ok i) :
    outcomeOf (.cmd w) = .result (resultOf i) := by
  simp [outcomeOf, wordOutcome, h, Request.succeed]
theorem outcomeOf_cmd_of_reserved {w : Word} (h : decodeCmd w = .error .reservedEncodeBits) :
    outcomeOf (.cmd w) = .refused .reservedEncodeBits := by simp [outcomeOf, wordOutcome, h]

/-- The step of a raw command word that decodes. -/
theorem step_of_cmd {s : State} {w : Word} {rest : List Request} {i : Instr}
    (hp : s.pending = .cmd w :: rest) (h : decodeCmd w = .ok i) :
    step s = .next ((afterExec i (s.take rest)).complete (.cmd w) (.result (resultOf i))) := by
  rw [step_of_pending hp, afterCore_some _ i _ (coreInstr_cmd_of_ok h), outcomeOf_cmd_of_ok h]

/-- Settles O28: the state before the record is the one `exec` answers. -/
theorem stepRunsTheDecodedInstruction : Obligations.StepRunsTheDecodedInstruction := by
  intro s w rest i hp h _
  refine ⟨afterExec i (s.take rest), resultOf i, exec_eq i _, afterExec_res i _, ?_⟩
  rw [step_of_cmd hp h, complete_cmd_result]

/-- The result word of ENCODE has a 0 above the codeword (30_encoding.md R49). -/
theorem encodeResult_format (d : DataWord) :
    (encodeResult d).getLsbD 7 = false ∧ (encodeResult d).extractLsb' 0 7 = encodeFn d := by
  constructor
  · simp [encodeResult, zext8]
  · rw [encodeResult, zext8, BitVec.extractLsb'_setWidth_of_le (by decide), BitVec.extractLsb'_eq_self]

/-- The result word of DECODE has 0000 above the data word (30_encoding.md R49). -/
theorem decodeResult_format (c : Codeword) :
    (decodeResult c).extractLsb' 4 4 = 0#4 ∧ (decodeResult c).extractLsb' 0 4 = decodeFn c := by
  constructor
  · rw [decodeResult, zext8, BitVec.extractLsb'_setWidth_of_le (by decide)]
    ext; simp
  · rw [decodeResult, zext8, BitVec.extractLsb'_setWidth_of_le (by decide), BitVec.extractLsb'_eq_self]

/-- An outcome is an error or a refusal, or it is a result (30_encoding.md R45). -/
theorem isSuccess_eq_false_iff (o : TxOutcome) :
    o.isSuccess = false ↔ (∃ e, o = .error e) ∨ (∃ r, o = .refused r) := by
  cases o <;> simp [TxOutcome.isSuccess]

/-- Settles O30: the result word is the one of the instruction performed, and there is one exactly when
the outcome is a success. -/
theorem resultWordHasItsFormat : Obligations.ResultWordHasItsFormat := by
  refine ⟨fun s d rest hp => ?_, fun s x rest hp => ?_, fun s req rest hp => ?_⟩
  · obtain ⟨hbit, hcode⟩ := encodeResult_format d
    exact ⟨_, encodeResult d, encodeFn d, _, step_of_cmd hp (decodeCmd_encodeCmd (.encode d)), rfl, rfl,
      rfl, rfl, hbit, hcode⟩
  · obtain ⟨hzero, hdata⟩ := decodeResult_format x
    exact ⟨_, decodeResult x, decodeFn x, _, step_of_cmd hp (decodeCmd_encodeCmd (.decode x)), rfl, rfl,
      rfl, rfl, hzero, hdata⟩
  · obtain ⟨t, hstep, -, hres, hcompleted⟩ := step_answers hp
    refine ⟨t, outcomeOf req, s.hostCopy req, hstep, hcompleted, ?_⟩
    rw [← isSuccess_eq_false_iff, outcomeOf_isSuccess, hres, Option.map_eq_none_iff,
      Option.isSome_eq_false_iff, Option.isNone_iff_eq_none]

/-- A transaction that has no instruction performed ends without the core. -/
theorem endsWithoutCore_of_coreInstr_none {s : State} {req : Request} {rest : List Request}
    (hp : s.pending = req :: rest) (h : coreInstr req = none) :
    s.EndsWithoutCore rest req (outcomeOf req) := by
  refine ⟨_, s.hostCopy req, step_of_pending hp, ?_⟩
  simp [h]

/-- No step clears the refusal mark (30_encoding.md R53). -/
theorem step_keeps_refusalMark (s t : State) (h : s.refusalMark = true) (hstep : step s = .next t) :
    t.refusalMark = true := by
  rcases step_cases hstep with ⟨-, rfl⟩ | ⟨req, rest, -, rfl⟩
  · exact h
  · simp [h]

/-- A run with a refusal in it never counts as one where every transaction succeeded
(30_encoding.md R53). -/
theorem everySucceeded_of_refusalMark {s : State} (h : s.refusalMark = true) :
    s.everySucceeded = false := by simp [State.everySucceeded, h]

/-- Settles O31: a reserved word has no instruction performed, the step that refuses it sets the mark,
and every run from there keeps it. -/
theorem reservedWordIsRefusedForTheWholeRun : Obligations.ReservedWordIsRefusedForTheWholeRun := by
  intro s w rest hop hrsv hp
  have hreserved : decodeCmd w = .error .reservedEncodeBits := decodeCmd_of_rsv_ne_zero hop hrsv
  have hend : s.EndsWithoutCore rest (.cmd w) (.refused .reservedEncodeBits) :=
    outcomeOf_cmd_of_reserved hreserved ▸
      endsWithoutCore_of_coreInstr_none hp (coreInstr_cmd_of_error hreserved)
  refine ⟨hend, fun n u hrun => ?_⟩
  obtain ⟨t, _, hstep, -, -, -, -, -, hmark⟩ := hend
  rw [run_succ_of_next n s t hstep] at hrun
  have hu : u.refusalMark = true := run_induction step_keeps_refusalMark n t u (by simp [hmark]) hrun
  exact ⟨hu, everySucceeded_of_refusalMark hu⟩

end Sys2Proof.Machine
end

section
/-! The three classes of command words as ranges and counts, and words written out
(30_encoding.md R51, R56). -/

namespace Sys2Proof.Machine

/-- The words with OP = 1 are those from 0x80 on. -/
theorem cmdOp_eq_decide (w : Word) : cmdOp w = decide (128 ≤ w.toNat) := w.msb_eq_decide

/-- The reserved field is the second hexadecimal digit of the word, without the operation bit. -/
theorem cmdRsv_eq_zero_iff (w : Word) : cmdRsv w = 0#3 ↔ w.toNat / 16 % 8 = 0 := by
  rw [← BitVec.toNat_inj, cmdRsv, BitVec.extractLsb'_toNat, Nat.shiftRight_eq_div_pow]
  rfl

/-- The words of ENCODE are those below 0x10. -/
theorem cmdOp_false_cmdRsv_zero_iff_lt (w : Word) :
    cmdOp w = false ∧ cmdRsv w = 0#3 ↔ w.toNat < 16 := by
  rw [cmdOp_eq_decide, cmdRsv_eq_zero_iff, decide_eq_false_iff_not]
  omega

/-- The reserved words are those from 0x10 to 0x7F (30_encoding.md R51). -/
theorem decodeCmd_eq_reserved_iff_range (w : Word) :
    decodeCmd w = .error .reservedEncodeBits ↔ 16 ≤ w.toNat ∧ w.toNat < 128 := by
  rw [decodeCmd_eq_error_iff, cmdWf_eq_false_iff, ne_eq, cmdOp_eq_decide, cmdRsv_eq_zero_iff,
    decide_eq_false_iff_not]
  omega

/-- Where `p` describes an interval, a range holds as many numbers that satisfy `p` as the interval is
long. -/
theorem length_filter_range_of_interval {p : Nat → Bool} {m a b : Nat} (hb : b ≤ m)
    (h : ∀ n < m, p n = true ↔ a ≤ n ∧ n < b) : ((List.range m).filter p).length = b - a := by
  have hset : (Finset.range m).filter (p · = true) = Finset.Ico a b := by
    ext n
    rw [Finset.mem_filter, Finset.mem_range, Finset.mem_Ico]
    exact ⟨fun ⟨hn, hp⟩ => (h n hn).1 hp, fun hn => ⟨by omega, (h n (by omega)).2 hn⟩⟩
  calc ((List.range m).filter p).length
      = Nat.count (p · = true) m := by simp [Nat.count, List.countP_eq_length_filter]
    _ = b - a := by rw [Nat.count_eq_card_filter_range, hset, Nat.card_Ico]

/-- Settles O24: each line is a lemma about the fields, and each class is an interval. -/
theorem commandWordsDecodeByTheirClass : Obligations.CommandWordsDecodeByTheirClass := by
  have hvalue : ∀ n < 256, (BitVec.ofNat 8 n).toNat = n := fun n hn => Nat.mod_eq_of_lt hn
  refine ⟨fun _ => decodeCmd_of_op, fun _ => decodeCmd_of_rsv_zero, fun _ => decodeCmd_of_rsv_ne_zero,
    fun w => ?_, length_filter_range_of_interval (a := 128) (b := 256) (le_refl _) fun n hn => ?_,
    length_filter_range_of_interval (a := 0) (b := 16) (by decide) fun n hn => ?_,
    length_filter_range_of_interval (a := 16) (b := 128) (by decide) fun n hn => ?_⟩
  · rw [decodeCmd_eq_reserved_iff_range, BitVec.le_def, BitVec.le_def]
    exact and_congr_right' Nat.lt_succ_iff
  · have hop := cmdOp_eq_decide (BitVec.ofNat 8 n)
    rw [hvalue n hn] at hop
    rw [← cmdOp, hop, decide_eq_true_iff]
    omega
  · have hword := cmdOp_false_cmdRsv_zero_iff_lt (BitVec.ofNat 8 n)
    rw [hvalue n hn] at hword
    rw [← cmdOp, ← cmdRsv, Bool.and_eq_true, Bool.not_eq_true', beq_iff_eq, hword]
    omega
  · rw [decide_eq_true_iff, decodeCmd_eq_reserved_iff_range, hvalue n hn]

/-- Settles O25: the words are those of the instructions named, and the last two have a reserved bit
set. -/
theorem writtenWordsDecode : Obligations.WrittenWordsDecode :=
  ⟨decodeCmd_encodeCmd (.encode 0b1000#4), decodeCmd_encodeCmd (.encode 0b0100#4),
    decodeCmd_encodeCmd (.encode 0b1111#4), decodeCmd_encodeCmd (.decode 0b0010110#7),
    decodeCmd_encodeCmd (.decode 0b1010110#7), decodeCmd_encodeCmd (.decode 0b1111111#7),
    decodeCmd_of_rsv_ne_zero rfl (by decide), decodeCmd_of_rsv_ne_zero rfl (by decide)⟩

end Sys2Proof.Machine
end

section
/-! Assembly and disassembly as inverses, by way of the instruction between the statement and the word
(30_encoding.md R55, R56). -/

namespace Sys2Proof.Machine

/-- The host call that asks for an instruction. -/
def instrCall : Instr → Request
  | .encode d => .call .encode (hostBits (dataBits d))
  | .decode c => .call .decode (hostBits (codeBits c))

theorem disassemble_of_ok {w : Word} {i : Instr} (h : decodeCmd w = .ok i) :
    disassemble w = instrCall i := by
  cases i <;> simp [disassemble, h, instrCall]

theorem disassemble_of_reserved {w : Word} (h : decodeCmd w = .error .reservedEncodeBits) :
    disassemble w = .cmd w := by simp [disassemble, h]

/-- Packing the bits of a codeword gives it back. -/
theorem packCode_codeBit (c : Codeword) :
    packCode (codeBit c 1) (codeBit c 2) (codeBit c 3) (codeBit c 4) (codeBit c 5) (codeBit c 6)
      (codeBit c 7) = c := by
  refine BitVec.eq_of_getMsbD_eq fun i hi => ?_
  rw [← codeBit_succ, ← codeBit_succ, codeBit_packCode]
  interval_cases i <;> rfl

/-- Four bits are packed into the command word of their ENCODE (30_encoding.md R47). -/
theorem encodeWordOf_eq_pass (b0 b1 b2 b3 : Bit) :
    encodeWordOf [b0, b1, b2, b3] = .pass (encodeCmd (.encode (packData b0 b1 b2 b3))) := by
  obtain ⟨w, hw, hdecode⟩ := encodeWordOf_bits b0 b1 b2 b3
  rw [hw, encodeCmd_of_decodeCmd hdecode]

/-- Seven bits are packed into the command word of their DECODE (30_encoding.md R48). -/
theorem decodeWordOf_eq_pass (b1 b2 b3 b4 b5 b6 b7 : Bit) :
    decodeWordOf [b1, b2, b3, b4, b5, b6, b7] =
      .pass (encodeCmd (.decode (packCode b1 b2 b3 b4 b5 b6 b7))) := by
  obtain ⟨w, hw, hdecode⟩ := decodeWordOf_bits b1 b2 b3 b4 b5 b6 b7
  rw [hw, encodeCmd_of_decodeCmd hdecode]

/-- The integers 0 and 1 of a host list of bits are read back as those bits. -/
theorem map_elemBit_hostBits (bs : List Bit) :
    (bs.map fun b => Elem.int b.toInt).map elemBit = bs := by
  rw [List.map_map]
  refine (List.map_congr_left fun b _ => ?_).trans bs.map_id
  cases b <;> rfl

/-- A host list of bits passes the element checks. -/
theorem validateShape_hostBits (wordOf : List Bit → Verdict) (bs : List Bit) :
    validateShape wordOf (hostBits bs) = wordOf bs := by
  have hbit : ∀ e ∈ bs.map fun b => Elem.int b.toInt, e = .int 0 ∨ e = .int 1 := by
    intro e he
    obtain ⟨b, -, rfl⟩ := List.mem_map.1 he
    cases b <;> simp
  rw [hostBits, validateShape, validateList_bits _ _ hbit, map_elemBit_hostBits]

/-- An element that passes both element checks is the integer of its bit. -/
theorem eq_int_elemBit {e : Elem} (hbinary : isNonBinaryInt e = false) (hint : isNonInt e = false) :
    e = .int (elemBit e).toInt := by
  cases e with
  | int n =>
    have hn : n = 0 ∨ n = 1 := by simpa [isNonBinaryInt, or_iff_not_imp_left] using hbinary
    rcases hn with rfl | rfl <;> rfl
  | nonInt x => simp [isNonInt] at hint

/-- Only a host list of bits passes validation, and it passes as the word of those bits. -/
theorem validateShape_pass {wordOf : List Bit → Verdict} {v : HostValue} {w : Word}
    (h : validateShape wordOf v = .pass w) : ∃ bs, v = hostBits bs ∧ wordOf bs = .pass w := by
  cases v with
  | str x => simp [validateShape] at h
  | otherSeq x => simp [validateShape] at h
  | nonSeq x => simp [validateShape] at h
  | list l =>
    simp only [validateShape, validateList] at h
    split at h
    · cases h
    split at h
    · cases h
    rename_i hbinary hint
    refine ⟨l.map elemBit, ?_, h⟩
    rw [Bool.not_eq_true, List.any_eq_false] at hbinary hint
    rw [hostBits, List.map_map]
    congr 1
    refine (l.map_id.symm.trans (List.map_congr_left fun e he => ?_))
    exact eq_int_elemBit (by simpa using hbinary e he) (by simpa using hint e he)

/-- A host call assembles to the word it passes validation as (30_encoding.md R55). -/
theorem assemble_call_eq_some_iff (op : Op) (v : HostValue) (w : Word) :
    assemble (.call op v) = some w ↔ validate op v = .pass w := by
  cases h : validate op v <;> simp [assemble, h]

/-- An instruction's host call assembles to its command word. -/
theorem assemble_instrCall (i : Instr) : assemble (instrCall i) = some (encodeCmd i) := by
  cases i with
  | encode d =>
    rw [instrCall, assemble_call_eq_some_iff, validate, validateEncode, validateShape_hostBits, dataBits,
      encodeWordOf_eq_pass, packData_dataBit]
  | decode c =>
    rw [instrCall, assemble_call_eq_some_iff, validate, validateDecode, validateShape_hostBits, codeBits,
      decodeWordOf_eq_pass, packCode_codeBit]

/-- Only the host calls of instructions assemble (30_encoding.md R55, R56). -/
theorem eq_instrCall_of_assemble {op : Op} {v : HostValue} {w : Word}
    (h : assemble (.call op v) = some w) : ∃ i, instrCall i = .call op v ∧ encodeCmd i = w := by
  rw [assemble_call_eq_some_iff] at h
  cases op with
  | encode =>
    obtain ⟨bs, rfl, hpass⟩ := validateShape_pass h
    obtain ⟨b0, b1, b2, b3, rfl⟩ : ∃ b0 b1 b2 b3, bs = [b0, b1, b2, b3] := by
      unfold encodeWordOf at hpass
      split at hpass
      · exact ⟨_, _, _, _, rfl⟩
      · cases hpass
    refine ⟨.encode (packData b0 b1 b2 b3), by rw [instrCall, dataBits_packData], ?_⟩
    exact Verdict.pass.inj ((encodeWordOf_eq_pass b0 b1 b2 b3).symm.trans hpass)
  | decode =>
    obtain ⟨bs, rfl, hpass⟩ := validateShape_pass h
    obtain ⟨b1, b2, b3, b4, b5, b6, b7, rfl⟩ :
        ∃ b1 b2 b3 b4 b5 b6 b7, bs = [b1, b2, b3, b4, b5, b6, b7] := by
      unfold decodeWordOf at hpass
      split at hpass
      · exact ⟨_, _, _, _, _, _, _, rfl⟩
      · cases hpass
    refine ⟨.decode (packCode b1 b2 b3 b4 b5 b6 b7), by rw [instrCall, codeBits_packCode], ?_⟩
    exact Verdict.pass.inj ((decodeWordOf_eq_pass b1 b2 b3 b4 b5 b6 b7).symm.trans hpass)

/-- Settles O26: a statement that assembles is the host call of an instruction, and its word decodes to
that instruction. -/
theorem disassemblyInvertsAssembly : Obligations.DisassemblyInvertsAssembly := by
  refine ⟨fun b0 b1 b2 b3 => ?_, fun b1 b2 b3 b4 b5 b6 b7 => ?_, fun op v w h => ?_,
    fun w => disassemble_of_reserved, fun w => ?_⟩
  · rw [assemble_call_eq_some_iff]
    exact validateShape_hostBits encodeWordOf [b0, b1, b2, b3]
  · rw [assemble_call_eq_some_iff]
    exact validateShape_hostBits decodeWordOf [b1, b2, b3, b4, b5, b6, b7]
  · obtain ⟨i, hcall, rfl⟩ := eq_instrCall_of_assemble h
    rw [disassemble_of_ok (decodeCmd_encodeCmd i), hcall]
  · rcases hd : decodeCmd w with ⟨⟨⟩⟩ | i
    · rw [disassemble_of_reserved hd, assemble]
    · rw [disassemble_of_ok hd, assemble_instrCall, encodeCmd_of_decodeCmd hd]

end Sys2Proof.Machine
end

section
/-! The text of a statement is read back: first the parts of the reader on text in which nothing has to
be dropped, then lists of bits and raw words (30_encoding.md R55, R56; notes/assumptions/7.md). -/

namespace Sys2Proof.Machine

/-! ## The parts of the reader -/

/-- A character that neither begins a comment nor opens a string. -/
def isPlain (c : Char) : Bool := c != ';' && c != '"'

/-- Plain text holds no comment. -/
theorem dropComment_eq_self {cs : List Char} (h : ∀ c ∈ cs, isPlain c = true) :
    dropComment false cs = cs := by
  induction cs with
  | nil => rfl
  | cons c cs ih =>
    obtain ⟨hc, hcs⟩ := List.forall_mem_cons.1 h
    obtain ⟨hsemi, hquote⟩ : c ≠ ';' ∧ c ≠ '"' := by simpa [isPlain] using hc
    simp [dropComment, hsemi, hquote, ih hcs]

/-- Blanks at the front are trimmed. -/
theorem trimBlanks_append_left {lead : List Char} (h : ∀ c ∈ lead, isBlank c = true) (cs : List Char) :
    trimBlanks (lead ++ cs) = trimBlanks cs := by
  rw [trimBlanks, List.dropWhile_append_of_pos h, trimBlanks]

/-- Text that has no blank at either end is left as it is. -/
theorem trimBlanks_eq_self {a z : Char} (ha : isBlank a = false) (hz : isBlank z = false)
    (cs : List Char) : trimBlanks (a :: (cs ++ [z])) = a :: (cs ++ [z]) := by
  simp [trimBlanks, ha, hz]

theorem trimBlanks_singleton {a : Char} (ha : isBlank a = false) : trimBlanks [a] = [a] := by
  simp [trimBlanks, ha]

/-- Trimming leaves something of a text that does not begin with a blank. -/
theorem trimBlanks_cons_ne_nil {a : Char} (ha : isBlank a = false) (cs : List Char) :
    trimBlanks (a :: cs) ≠ [] := by
  simp [trimBlanks, ha]

theorem afterPrefix_append (p cs : List Char) : afterPrefix p (p ++ cs) = some cs := by
  induction p with
  | nil => rfl
  | cons a p ih => simp [afterPrefix, ih]

/-- Text with no comma is one part. -/
theorem splitCommas_eq_singleton {w : List Char} (hw : ',' ∉ w) : splitCommas w = [w] := by
  induction w with
  | nil => rfl
  | cons c w ih =>
    rw [List.mem_cons, not_or] at hw
    obtain ⟨hc, hw⟩ := hw
    simp [splitCommas, Ne.symm hc, ih hw]

/-- The first comma ends the first part. -/
theorem splitCommas_append_comma {w : List Char} (hw : ',' ∉ w) (cs : List Char) :
    splitCommas (w ++ ',' :: cs) = w :: splitCommas cs := by
  induction w with
  | nil => rfl
  | cons c w ih =>
    rw [List.mem_cons, not_or] at hw
    obtain ⟨hc, hw⟩ := hw
    simp [splitCommas, Ne.symm hc, ih hw]

/-! ## Lists of bits -/

/-- A bit as a character. -/
def bitChar (b : Bit) : Char := if b then '1' else '0'

theorem isBlank_bitChar (b : Bit) : isBlank (bitChar b) = false := by cases b <;> rfl
theorem bitChar_ne_comma (b : Bit) : bitChar b ≠ ',' := by cases b <;> decide
theorem elemText_bit (b : Bit) : elemText (.int b.toInt) = [bitChar b] := by cases b <;> decide
theorem readElem_bitChar (b : Bit) : readElem [bitChar b] = .int b.toInt := by cases b <;> decide

/-- The text of a list of bits, without its brackets. -/
def bitsText (bs : List Bit) : List Char := elemsText (bs.map fun b => .int b.toInt)

@[simp] theorem bitsText_singleton (b : Bit) : bitsText [b] = [bitChar b] := elemText_bit b
@[simp] theorem bitsText_cons_cons (b b' : Bit) (bs : List Bit) :
    bitsText (b :: b' :: bs) = bitChar b :: ',' :: ' ' :: bitsText (b' :: bs) :=
  congrArg (· ++ ',' :: ' ' :: bitsText (b' :: bs)) (elemText_bit b)

/-- The text of a list of bits begins with the first bit. -/
theorem bitsText_cons (b : Bit) (bs : List Bit) : ∃ cs, bitsText (b :: bs) = bitChar b :: cs := by
  cases bs with
  | nil => exact ⟨_, bitsText_singleton b⟩
  | cons b' bs => exact ⟨_, bitsText_cons_cons b b' bs⟩

theorem mem_bitsText (bs : List Bit) : ∀ c ∈ bitsText bs, c ∈ ['0', '1', ',', ' '] := by
  have hbit : ∀ b, bitChar b ∈ ['0', '1', ',', ' '] := by decide
  induction bs with
  | nil => intro c hc; cases hc
  | cons b bs ih =>
    cases bs with
    | nil => simpa using hbit b
    | cons b' bs =>
      rw [bitsText_cons_cons]
      exact List.forall_mem_cons.2 ⟨hbit b, List.forall_mem_cons.2 ⟨by decide,
        List.forall_mem_cons.2 ⟨by decide, ih⟩⟩⟩

section Lead
variable {lead : List Char} (hlead : ∀ c ∈ lead, isBlank c = true)
include hlead

theorem trimBlanks_lead_bitChar (b : Bit) : trimBlanks (lead ++ [bitChar b]) = [bitChar b] := by
  rw [trimBlanks_append_left hlead, trimBlanks_singleton (isBlank_bitChar b)]

theorem comma_notMem_lead_bitChar (b : Bit) : ',' ∉ lead ++ [bitChar b] := by
  rw [List.mem_append, List.mem_singleton, not_or]
  exact ⟨fun h => absurd (hlead _ h) (by decide), (bitChar_ne_comma b).symm⟩

/-- The parts between the commas, trimmed, are the bits. The blank after a comma leads the next part. -/
theorem splitCommas_bitsText (b : Bit) (bs : List Bit) :
    (splitCommas (lead ++ bitsText (b :: bs))).map trimBlanks =
      (b :: bs).map fun b => [bitChar b] := by
  have htrim := trimBlanks_lead_bitChar hlead b
  have hcomma := comma_notMem_lead_bitChar hlead b
  induction bs generalizing lead b with
  | nil => simp [splitCommas_eq_singleton hcomma, htrim]
  | cons b' bs ih =>
    have hblank : ∀ c ∈ [' '], isBlank c = true := by simp [isBlank]
    have hrest := ih hblank b' (trimBlanks_lead_bitChar hblank b') (comma_notMem_lead_bitChar hblank b')
    rw [bitsText_cons_cons, List.append_cons, splitCommas_append_comma hcomma, List.map_cons, htrim]
    exact congrArg _ hrest

end Lead

theorem readElems_bitsText (bs : List Bit) :
    readElems (bitsText bs) = some (bs.map fun b => .int b.toInt) := by
  cases bs with
  | nil => rfl
  | cons b bs =>
    have hparts := splitCommas_bitsText (lead := []) (by simp) b bs
    obtain ⟨cs, hcs⟩ := bitsText_cons b bs
    have hne : trimBlanks (bitsText (b :: bs)) ≠ [] :=
      hcs ▸ trimBlanks_cons_ne_nil (isBlank_bitChar b) cs
    rw [List.nil_append] at hparts
    simp [readElems, hparts, hne, readElem_bitChar, Function.comp_def]

/-! ## Statements -/

section Keyword
variable {mid : List Char} {z : Char} (hplain : ∀ c ∈ mid ++ [z], isPlain c = true)
  (hz : isBlank z = false)
include hplain hz

/-- A keyword and plain text after it, with no blank at either end, are read as they are. -/
theorem trim_dropComment_keyword {a : Char} {k : List Char} (hk : ∀ c ∈ a :: k, isPlain c = true)
    (ha : isBlank a = false) :
    trimBlanks (dropComment false (a :: k ++ (mid ++ [z]))) = a :: k ++ (mid ++ [z]) := by
  rw [dropComment_eq_self (List.forall_mem_append.2 ⟨hk, hplain⟩), ← List.append_assoc]
  exact trimBlanks_eq_self ha hz (k ++ mid)

/-- The operand is read after the mnemonic. -/
theorem parseStatement_mnemonic (op : Op) :
    parseStatement (op.mnemonic ++ (mid ++ [z])) = readOperand op (mid ++ [z]) := by
  cases op with
  | encode =>
    have hkept := trim_dropComment_keyword hplain hz (a := 'e') (k := ['n', 'c', 'o', 'd', 'e'])
      (by simp [isPlain]) rfl
    rw [parseStatement, Op.mnemonic, hkept, afterPrefix_append]
  | decode =>
    have hkept := trim_dropComment_keyword hplain hz (a := 'd') (k := ['e', 'c', 'o', 'd', 'e'])
      (by simp [isPlain]) rfl
    have hother : afterPrefix Op.encode.mnemonic (Op.decode.mnemonic ++ (mid ++ [z])) = none := rfl
    simp only [parseStatement, Op.mnemonic] at hother ⊢
    simp only [hkept, hother, afterPrefix_append]

/-- The raw word is read after `cmd`. -/
theorem parseStatement_cmd :
    parseStatement (['c', 'm', 'd'] ++ (mid ++ [z])) = readCmd (mid ++ [z]) := by
  have hkept := trim_dropComment_keyword hplain hz (a := 'c') (k := ['m', 'd']) (by simp [isPlain]) rfl
  have hencode : afterPrefix Op.encode.mnemonic (['c', 'm', 'd'] ++ (mid ++ [z])) = none := rfl
  have hdecode : afterPrefix Op.decode.mnemonic (['c', 'm', 'd'] ++ (mid ++ [z])) = none := rfl
  simp only [parseStatement, hkept, hencode, hdecode, afterPrefix_append]

end Keyword

/-- A list in square brackets is read as its elements. -/
theorem readOperand_brackets (op : Op) (body : List Char) :
    readOperand op (' ' :: '[' :: (body ++ [']'])) =
      (readElems body).map fun l => .call op (.list l) := by
  simp [readOperand, isBlank, trimBlanks_eq_self (a := '[') (z := ']') rfl rfl, readValue,
    Function.comp_def]

/-- The text of a host call with a list of bits, of any length, is read back. -/
theorem parseStatement_hostBits (op : Op) (bs : List Bit) :
    parseStatement (statementText (.call op (hostBits bs))) = some (.call op (hostBits bs)) := by
  have hplain : ∀ c ∈ (' ' :: '[' :: bitsText bs) ++ [']'], isPlain c = true := by
    have hbody : ∀ c ∈ bitsText bs, isPlain c = true := fun c hc => by
      have hc := mem_bitsText bs c hc
      simp only [List.mem_cons, List.not_mem_nil, or_false] at hc
      rcases hc with rfl | rfl | rfl | rfl <;> rfl
    simpa [or_imp, forall_and, isPlain] using hbody
  calc parseStatement (op.mnemonic ++ ((' ' :: '[' :: bitsText bs) ++ [']']))
      = readOperand op (' ' :: '[' :: (bitsText bs ++ [']'])) := parseStatement_mnemonic hplain rfl op
    _ = some (.call op (hostBits bs)) := by rw [readOperand_brackets, readElems_bitsText]; rfl

/-- A hexadecimal digit stands for its value, and is read in statement text as itself. -/
theorem hexDigit_spec : ∀ n < 16, digitValue 16 (hexDigit n) = some n ∧
    isPlain (hexDigit n) = true ∧ isBlank (hexDigit n) = false := by decide

/-- The text of a raw word is read back. -/
theorem parseStatement_cmd_word (w : Word) :
    parseStatement (statementText (.cmd w)) = some (.cmd w) := by
  obtain ⟨hhigh, hhighPlain, -⟩ := hexDigit_spec (w.toNat / 16) (by omega)
  obtain ⟨hlow, hlowPlain, hlowBlank⟩ := hexDigit_spec (w.toNat % 16) (Nat.mod_lt _ (by decide))
  have hplain : ∀ c ∈ [' ', '0', 'x', hexDigit (w.toNat / 16)] ++ [hexDigit (w.toNat % 16)],
      isPlain c = true := by
    have hlead : ∀ c ∈ [' ', '0', 'x'], isPlain c = true := by simp [isPlain]
    simpa [hhighPlain, hlowPlain] using hlead
  have hvalue : w.toNat / 16 * 16 + w.toNat % 16 = w.toNat := by omega
  have htrim := trimBlanks_eq_self (a := '0') rfl hlowBlank ['x', hexDigit (w.toNat / 16)]
  refine (parseStatement_cmd hplain hlowBlank).trans ?_
  simp only [List.cons_append, List.nil_append] at htrim
  simp [readCmd, isBlank, htrim, readNat, readDigits, hhigh, hlow, hvalue]

/-- Settles O27: a disassembly is a host call with a list of bits or a raw word. -/
theorem statementTextReadsBack : Obligations.StatementTextReadsBack := by
  refine fun w => ⟨?_, parseStatement_cmd_word w⟩
  rcases hd : decodeCmd w with ⟨⟨⟩⟩ | i
  · rw [disassemble_of_reserved hd, parseStatement_cmd_word]
  · rw [disassemble_of_ok hd]
    cases i with
    | encode d => exact parseStatement_hostBits .encode (dataBits d)
    | decode c => exact parseStatement_hostBits .decode (codeBits c)

end Sys2Proof.Machine
end

section
/-! The parity nets by the general rule and by the toggling procedure, and the interleaver by the scan
(40_encoder.md R59 to R63). -/

namespace Sys2Proof.Machine

@[simp] theorem xorAll_nil : xorAll [] = false := rfl
@[simp] theorem xorAll_cons (b : Bit) (bs : List Bit) : xorAll (b :: bs) = (b ^^ xorAll bs) := rfl

section Parity
variable (d : DataWord)

/-- The bits of `d` at the indices in `order` whose position has bit `k` set (40_encoder.md R59). -/
def coveredBits (k : Nat) (order : List Nat) : List Bit :=
  (order.filter fun i => (bin3 (dataPosAt i)).getLsbD k).map (dataBit d)

theorem parityGeneral_eq (k : Nat) : parityGeneral d k = xorAll (coveredBits d k [0, 1, 2, 3]) := rfl

theorem xorAll_coveredBits_cons (k i : Nat) (order : List Nat) :
    xorAll (coveredBits d k (i :: order)) =
      ((dataBit d i && (bin3 (dataPosAt i)).getLsbD k) ^^ xorAll (coveredBits d k order)) := by
  cases h : (bin3 (dataPosAt i)).getLsbD k <;> simp [coveredBits, h]

/-- The three trees are the general rule at k = 0, 1, 2. -/
theorem encNets_eq_parityGeneral :
    encNets d = ⟨parityGeneral d 0, parityGeneral d 1, parityGeneral d 2⟩ := by
  have h0 : coveredBits d 0 [0, 1, 2, 3] = [dataBit d 0, dataBit d 1, dataBit d 3] := rfl
  have h1 : coveredBits d 1 [0, 1, 2, 3] = [dataBit d 0, dataBit d 2, dataBit d 3] := rfl
  have h2 : coveredBits d 2 [0, 1, 2, 3] = [dataBit d 1, dataBit d 2, dataBit d 3] := rfl
  simp [encNets, parity1, parity2, parity4, parityGeneral_eq, h0, h1, h2]

/-- A coverage set includes a data bit's position exactly when that position has the bit set, for every
index: past the table the position is 0, which has no bit set. -/
theorem dataPosAt_mem_coverage (k i : Nat) :
    dataPosAt i ∈ coverage k ↔ (bin3 (dataPosAt i)).getLsbD k = true := by
  have hpos : dataPosAt i ∈ positions ∨ dataPosAt i = 0 := by
    by_cases hi : i < 4
    · exact .inl ((by decide : ∀ i < 4, dataPosAt i ∈ positions) i hi)
    · exact .inr (List.getD_eq_default _ _ (not_lt.1 hi))
  rw [coverage, List.mem_filter]
  rcases hpos with hmem | hzero
  · simp [hmem]
  · simp [hzero, bin3]

/-- One turn XORs the data bit into the parity bits that cover it. -/
theorem toggleParity_eq (n : EncNets) (i : Nat) :
    toggleParity d n i =
      ⟨n.p1 ^^ (dataBit d i && (bin3 (dataPosAt i)).getLsbD 0),
        n.p2 ^^ (dataBit d i && (bin3 (dataPosAt i)).getLsbD 1),
        n.p4 ^^ (dataBit d i && (bin3 (dataPosAt i)).getLsbD 2)⟩ := by
  cases h : dataBit d i <;> simp [toggleParity, h, dataPosAt_mem_coverage]

/-- Toggling over any indices XORs their covered bits into each parity bit. -/
theorem foldl_toggleParity (order : List Nat) (n : EncNets) :
    order.foldl (toggleParity d) n =
      ⟨n.p1 ^^ xorAll (coveredBits d 0 order), n.p2 ^^ xorAll (coveredBits d 1 order),
        n.p4 ^^ xorAll (coveredBits d 2 order)⟩ := by
  induction order generalizing n with
  | nil => simp [coveredBits]
  | cons i order ih =>
    simp only [List.foldl_cons, ih, toggleParity_eq, xorAll_coveredBits_cons, Bool.xor_assoc]

/-- The order of toggling does not change the result (40_encoder.md R59). -/
theorem parityByToggling_perm {order order' : List Nat} (h : order.Perm order') :
    parityByToggling d order = parityByToggling d order' :=
  h.foldl_eq' (fun i _ j _ n => toggleParity_comm d n i j) _

end Parity

/-- Settles O5: toggling in the order of the indices XORs the covered bits into 0, which is the general
rule, and any other order gives the same. -/
theorem parityTreesMeetTheGeneralRule : Obligations.ParityTreesMeetTheGeneralRule := by
  intro d
  have hrule := encNets_eq_parityGeneral d
  refine ⟨congrArg EncNets.p1 hrule, congrArg EncNets.p2 hrule, congrArg EncNets.p4 hrule,
    rfl, rfl, rfl, fun order hperm => ?_⟩
  calc parityByToggling d order = parityByToggling d [0, 1, 2, 3] := parityByToggling_perm d hperm
    _ = ⟨parityGeneral d 0, parityGeneral d 1, parityGeneral d 2⟩ := by
      simp only [parityByToggling, foldl_toggleParity, parityGeneral_eq, Bool.false_xor]
    _ = encNets d := hrule.symm

section Scan
variable (n : EncNets)

/-! One turn of the scan (40_encoder.md R63). -/

theorem emitScan_parity {p : Nat} (h : p ∈ parityPos) (ps : List Nat) (unused : List Bit) :
    emitScan n (p :: ps) unused = n.at p :: emitScan n ps unused := if_pos h
theorem emitScan_data {p : Nat} (h : p ∉ parityPos) (ps : List Nat) (b : Bit) (unused : List Bit) :
    emitScan n (p :: ps) (b :: unused) = b :: emitScan n ps unused := if_neg h

/-- The scan of positions 1 to 7 takes the parity bits at 1, 2, 4 and the data bits in between. -/
theorem emitScan_positions (b0 b1 b2 b3 : Bit) :
    emitScan n positions [b0, b1, b2, b3] = [n.p1, n.p2, b0, n.p4, b1, b2, b3] := by
  rw [positions, emitScan_parity n (by decide), emitScan_parity n (by decide),
    emitScan_data n (by decide), emitScan_parity n (by decide), emitScan_data n (by decide),
    emitScan_data n (by decide), emitScan_data n (by decide)]
  rfl

end Scan

/-- Settles O6: the interleaver packs the list that the scan emits. -/
theorem interleaverIsTheScan : Obligations.InterleaverIsTheScan := by
  intro n d
  have hbits : codeBits (interleave n d) =
      [n.p1, n.p2, dataBit d 0, n.p4, dataBit d 1, dataBit d 2, dataBit d 3] := codeBits_packCode ..
  refine ⟨hbits.trans (emitScan_positions n ..).symm, hbits, ?_, ?_⟩
  all_goals exact BitVec.getLsbD_ofBoolListBE

end Sys2Proof.Machine
end

section
/-! ENCODE: the state and the result word it leaves, and the codeword at `enc_c` position by position, by
which the codewords are exactly the words of even parity (40_encoder.md R64 to R67). -/

namespace Sys2Proof.Machine

/-- The zero extension of a packed codeword puts a 0 before its bits (40_encoder.md R64). -/
theorem zext8_packCode (c1 c2 c3 c4 c5 c6 c7 : Bit) :
    zext8 (packCode c1 c2 c3 c4 c5 c6 c7) =
      BitVec.ofBoolListBE [false, c1, c2, c3, c4, c5, c6, c7] := by
  have hfits := (packCode c1 c2 c3 c4 c5 c6 c7).isLt
  refine BitVec.eq_of_toNat_eq ?_
  rw [zext8, BitVec.toNat_setWidth, Nat.mod_eq_of_lt (by omega), toNat_ofBoolListBE_cons, packCode]
  simp

/-- ENCODE completes, and its codeword is at `enc_c`. -/
theorem exec_encode_shows (d : DataWord) (s : State) :
    ∃ t, exec (.encode d) s = .next t ∧ t.encC = some (encodeFn d) :=
  ⟨_, exec_eq (.encode d) s, afterExec_encode_encC d s⟩

/-- Settles O7: the packed parity and data bits are those of the pseudocode, with a 0 before them; the
corner cases are values of the result. -/
theorem encodeExecutes : Obligations.EncodeExecutes := by
  have hexec : ∀ (d : DataWord) (s : State), exec (.encode d) s =
      .next { s with encD := some d, res := some (encodeResult d) } := fun _ _ => rfl
  refine ⟨fun d s => ⟨decodeCmd_encodeCmd (.encode d), ?_, ?_⟩, fun s x hx => ?_⟩
  · have hrow := Laws.TableRow.encode d ⟨"encode", 0x00#8, 0xF0#8⟩ (by decide)
    exact beq_iff_eq.1 hrow
  · rw [hexec, encodeResult, encodeFn, interleave, zext8_packCode]
    rfl
  · simp only [List.mem_cons, List.not_mem_nil, or_false] at hx
    rcases hx with rfl | rfl | rfl | rfl | rfl | rfl <;> rfl

/-! ## The codeword position by position -/

/-- Every position is a parity position or the position of a data bit (10_state.md R25, R27). -/
theorem position_cases : ∀ p ∈ positions, (∃ k < 3, p = 2 ^ k) ∨ ∃ i < 4, p = dataPosAt i := by decide

/-- Two codewords with the same bit at every position are the same. -/
theorem codeword_ext {c c' : Codeword} (h : ∀ p ∈ positions, codeBit c p = codeBit c' p) : c = c' := by
  refine BitVec.eq_of_getMsbD_eq fun i hi => ?_
  rw [← codeBit_succ, ← codeBit_succ]
  exact h _ ((by decide : ∀ i < 7, i + 1 ∈ positions) i hi)

/-- A parity position carries the parity bit of the general rule. -/
theorem codeBit_encodeFn_two_pow (d : DataWord) :
    ∀ k < 3, codeBit (encodeFn d) (2 ^ k) = parityGeneral d k := by
  intro k hk
  rw [encodeFn, encNets_eq_parityGeneral, interleave]
  interval_cases k <;> exact codeBit_packCode ..

/-- A data position carries its data bit unchanged (40_encoder.md R66). -/
theorem codeBit_encodeFn_dataPosAt (d : DataWord) :
    ∀ i < 4, codeBit (encodeFn d) (dataPosAt i) = dataBit d i := by
  intro i hi
  interval_cases i <;> exact codeBit_packCode ..

/-- Settles O9: each clause is the data bit at its own position. -/
theorem codewordCarriesTheData : Obligations.CodewordCarriesTheData := by
  intro d s
  obtain ⟨t, hexec, hshown⟩ := exec_encode_shows d s
  have hdata := codeBit_encodeFn_dataPosAt d
  exact ⟨t, encodeFn d, hexec, hshown, hdata 0 (by decide), hdata 1 (by decide), hdata 2 (by decide),
    hdata 3 (by decide)⟩

/-! ## Even parity -/

/-- The extractor reads each data bit at its own position. -/
theorem dataBit_extract (c : Codeword) : ∀ i < 4, dataBit (extract c) i = codeBit c (dataPosAt i) := by
  intro i hi
  interval_cases i <;> exact dataBit_packData ..

/-- The extractor undoes the encoder: the code is systematic (40_encoder.md R66). -/
@[simp] theorem extract_encodeFn (d : DataWord) : extract (encodeFn d) = d := by
  have hdata := codeBit_encodeFn_dataPosAt d
  calc extract (encodeFn d)
      = packData (dataBit d 0) (dataBit d 1) (dataBit d 2) (dataBit d 3) :=
        congr (congr (congr (congrArg packData (hdata 0 (by decide))) (hdata 1 (by decide)))
          (hdata 2 (by decide))) (hdata 3 (by decide))
    _ = d := packData_dataBit d

/-- The general rule for the data bits of a word is the exclusive-or over the data positions of the
coverage set. -/
theorem parityGeneral_extract (c : Codeword) {k : Nat} (hk : k < 3) :
    parityGeneral (extract c) k =
      xorAll (((coverage k).filter (· ∈ dataPos)).map (codeBit c)) := by
  have hindex : ∀ k < 3, ([0, 1, 2, 3].filter fun i => (bin3 (dataPosAt i)).getLsbD k).map dataPosAt =
      (coverage k).filter (· ∈ dataPos) := by decide
  rw [parityGeneral, ← hindex k hk, List.map_map]
  refine congrArg xorAll (List.map_congr_left fun i hi => dataBit_extract c i ?_)
  have hmem : i ∈ List.range 4 := List.mem_of_mem_filter hi
  exact List.mem_range.1 hmem

/-- A coverage set is its own parity position and data positions (10_state.md R26). -/
theorem coverage_eq_cons :
    ∀ k < 3, coverage k = 2 ^ k :: (coverage k).filter (· ∈ dataPos) := by decide

/-- A word has even parity over a coverage set when its parity position holds the parity of its data. -/
theorem xorAll_coverage_eq_false_iff (c : Codeword) {k : Nat} (hk : k < 3) :
    xorAll ((coverage k).map (codeBit c)) = false ↔ codeBit c (2 ^ k) = parityGeneral (extract c) k := by
  rw [coverage_eq_cons k hk, List.map_cons, xorAll_cons, ← parityGeneral_extract c hk]
  exact bne_eq_false_iff_eq

/-- The words of even parity are the codewords of their own data: at a data position the two agree, and
at a parity position they agree when the parity is even (40_encoder.md R65, R67). -/
theorem evenParity_iff (c : Codeword) :
    (∀ k < 3, xorAll ((coverage k).map (codeBit c)) = false) ↔ encodeFn (extract c) = c := by
  constructor
  · intro heven
    refine codeword_ext fun p hp => ?_
    rcases position_cases p hp with ⟨k, hk, rfl⟩ | ⟨i, hi, rfl⟩
    · rw [codeBit_encodeFn_two_pow _ k hk, (xorAll_coverage_eq_false_iff c hk).1 (heven k hk)]
    · rw [codeBit_encodeFn_dataPosAt _ i hi, dataBit_extract c i hi]
  · intro hcode k hk
    rw [xorAll_coverage_eq_false_iff c hk, ← codeBit_encodeFn_two_pow _ k hk, hcode]

/-- Settles O8: the codeword is the one of its own data, so its parity is even over every coverage
set. -/
theorem codewordHasEvenParity : Obligations.CodewordHasEvenParity := by
  intro d s
  obtain ⟨t, hexec, hshown⟩ := exec_encode_shows d s
  have heven := (evenParity_iff (encodeFn d)).2 (congrArg encodeFn (extract_encodeFn d))
  refine ⟨t, encodeFn d, hexec, hshown, heven 0 (by decide), heven 1 (by decide), heven 2 (by decide),
    heven, fun k hk => ?_⟩
  rw [← parityGeneral_extract _ hk]
  exact (xorAll_coverage_eq_false_iff _ hk).1 (heven k hk)

/-! ## Linearity -/

theorem dataBit_xor (a b : DataWord) (i : Nat) : dataBit (a ^^^ b) i = (dataBit a i ^^ dataBit b i) := by
  simp [dataBit, Bool.and_xor_distrib_left]

theorem codeBit_xor (c c' : Codeword) (p : Nat) :
    codeBit (c ^^^ c') p = (codeBit c p ^^ codeBit c' p) := by
  simp [codeBit, Bool.and_xor_distrib_left]

theorem xorAll_map_xor (f g : Nat → Bit) (is : List Nat) :
    xorAll (is.map fun i => f i ^^ g i) = (xorAll (is.map f) ^^ xorAll (is.map g)) := by
  induction is with
  | nil => rfl
  | cons i is ih => simp [ih, Bool.xor_left_comm (g i)]

theorem parityGeneral_xor (a b : DataWord) (k : Nat) :
    parityGeneral (a ^^^ b) k = (parityGeneral a k ^^ parityGeneral b k) := by
  rw [parityGeneral, funext (dataBit_xor a b), xorAll_map_xor]
  rfl

/-- The encoder is linear, since every bit of the codeword is (40_encoder.md R67). -/
theorem encodeFn_xor (a b : DataWord) : encodeFn (a ^^^ b) = encodeFn a ^^^ encodeFn b := by
  refine codeword_ext fun p hp => ?_
  rw [codeBit_xor]
  rcases position_cases p hp with ⟨k, hk, rfl⟩ | ⟨i, hi, rfl⟩
  · simp only [codeBit_encodeFn_two_pow _ k hk, parityGeneral_xor]
  · simp only [codeBit_encodeFn_dataPosAt _ i hi, dataBit_xor]

theorem encodeFn_injective : Function.Injective encodeFn :=
  Function.LeftInverse.injective extract_encodeFn

/-- Settles O10: ENCODE shows `encodeFn`, which is linear and which the extractor undoes, and a word of
even parity is the codeword of its own data. -/
theorem encodeIsLinearAndInjective : Obligations.EncodeIsLinearAndInjective := by
  refine ⟨exec_encode_shows 0#4, fun s a b => ?_, fun s c => ?_⟩
  · obtain ⟨ta, hexeca, hshowna⟩ := exec_encode_shows a s
    obtain ⟨tb, hexecb, hshownb⟩ := exec_encode_shows b s
    obtain ⟨tab, hexecab, hshownab⟩ := exec_encode_shows (a ^^^ b) s
    exact ⟨ta, tb, tab, encodeFn a, encodeFn b, hexeca, hexecb, hexecab, hshowna, hshownb,
      encodeFn_xor a b ▸ hshownab, @encodeFn_injective a b⟩
  · rw [evenParity_iff]
    constructor
    · intro hcode
      obtain ⟨t, hexec, hshown⟩ := exec_encode_shows (extract c) s
      exact ⟨extract c, t, hexec, hcode ▸ hshown⟩
    · rintro ⟨d, t, hexec, hshown⟩
      obtain rfl := Host.Outcome.next.inj ((exec_eq (.encode d) s).symm.trans hexec)
      obtain rfl := Option.some.inj ((afterExec_encode_encC d s).symm.trans hshown)
      rw [extract_encodeFn]

end Sys2Proof.Machine
end

section
/-! DECODE: what it shows, the syndrome by its accumulation, the error position and the flip it makes, and
the result (41_decoder.md R68 to R74). -/

namespace Sys2Proof.Machine

/-! ## What DECODE shows -/

@[simp] theorem decNets_syn (r : Codeword) : (decNets r).syn = syndrome r := rfl
@[simp] theorem decNets_err (r : Codeword) : (decNets r).err = val3 (syndrome r) := rfl
@[simp] theorem decNets_flip (r : Codeword) : (decNets r).flip = oneHot (val3 (syndrome r)) := rfl
@[simp] theorem decNets_corrected (r : Codeword) :
    (decNets r).corrected = flipAt r (val3 (syndrome r)) := rfl

@[simp] theorem afterExec_decode_decNets (c : Codeword) (s : State) :
    (afterExec (.decode c) s).decNets = some (decNets c) :=
  State.decNets_of_settled _ c (afterExec_decode_decR c s)

/-- DECODE completes: the received word stands at `dec_r`, its nets and its data word are shown, and the
data word is the result. -/
theorem exec_decode_shows (c : Codeword) (s : State) :
    ∃ t, exec (.decode c) s = .next t ∧ t.decR = some c ∧ t.decNets = some (decNets c) ∧
      t.decQ = some (decodeFn c) ∧ t.res = some (zext8 (decodeFn c)) :=
  ⟨_, exec_eq (.decode c) s, afterExec_decode_decR c s, afterExec_decode_decNets c s,
    afterExec_decode_decQ c s, afterExec_res (.decode c) s⟩

/-! ## The syndrome -/

section Syndrome
variable (r : Codeword)

theorem getLsbD_syndrome_zero : (syndrome r).getLsbD 0 = syndrome0 r := BitVec.getLsbD_ofBoolListBE
theorem getLsbD_syndrome_one : (syndrome r).getLsbD 1 = syndrome1 r := BitVec.getLsbD_ofBoolListBE
theorem getLsbD_syndrome_two : (syndrome r).getLsbD 2 = syndrome2 r := BitVec.getLsbD_ofBoolListBE

/-- Each bit of the syndrome is the parity of the word over its coverage set (41_decoder.md R69). -/
theorem getLsbD_syndrome {k : Nat} (hk : k < 3) :
    (syndrome r).getLsbD k = xorAll ((coverage k).map (codeBit r)) := by
  obtain ⟨h0, h1, h2, -⟩ := coverageSetsAreTheTable
  interval_cases k
  · rw [getLsbD_syndrome_zero, h0]
    simp [syndrome0]
  · rw [getLsbD_syndrome_one, h1]
    simp [syndrome1]
  · rw [getLsbD_syndrome_two, h2]
    simp [syndrome2]

/-- Accumulating over any positions XORs, into each bit of the accumulator, the received bits at the
positions that have that bit set (41_decoder.md R68). -/
theorem getLsbD_foldl_accumulate (k : Nat) (order : List Nat) (acc : Syndrome) :
    (order.foldl (accumulate r) acc).getLsbD k =
      (acc.getLsbD k ^^ xorAll ((order.filter fun p => (bin3 p).getLsbD k).map (codeBit r))) := by
  induction order generalizing acc with
  | nil => simp
  | cons p order ih =>
    rw [List.foldl_cons, ih]
    cases hbit : codeBit r p <;> cases hpos : (bin3 p).getLsbD k <;> simp [accumulate, hbit, hpos]

/-- The order of accumulation does not change the result (41_decoder.md R68). -/
theorem syndromeByAccumulation_perm {order order' : List Nat} (h : order.Perm order') :
    syndromeByAccumulation r order = syndromeByAccumulation r order' :=
  h.foldl_eq' (fun p _ q _ acc => accumulate_comm r acc p q) _

/-- In the order of the positions the accumulation gives the trees, since the positions that reach bit `k`
are its coverage set. -/
theorem syndromeByAccumulation_positions : syndromeByAccumulation r positions = syndrome r := by
  refine BitVec.eq_of_getLsbD_eq fun k hk => ?_
  rw [syndromeByAccumulation, getLsbD_foldl_accumulate, ← coverage, ← getLsbD_syndrome r hk]
  simp

end Syndrome

/-- Settles O11: the bits of the syndrome are the trees, the accumulation in the order of the positions
gives them, and any other order gives the same. -/
theorem syndromeTreesAreTheAccumulation : Obligations.SyndromeTreesAreTheAccumulation := by
  intro r s
  obtain ⟨t, hexec, -, hnets, -⟩ := exec_decode_shows r s
  exact ⟨t, decNets r, hexec, hnets, getLsbD_syndrome_zero r, getLsbD_syndrome_one r,
    getLsbD_syndrome_two r, fun order hperm =>
      (syndromeByAccumulation_perm r hperm).trans (syndromeByAccumulation_positions r)⟩

/-! ## The error position and the flip -/

/-- The error position is the value of the syndrome as a binary numeral. -/
theorem val3_eq_toNat (s : Syndrome) : val3 s = s.toNat := by revert s; decide

theorem val3_lt (s : Syndrome) : val3 s < 8 := val3_eq_toNat s ▸ s.isLt

@[simp] theorem bin3_val3 (s : Syndrome) : bin3 (val3 s) = s := by
  rw [val3_eq_toNat, bin3, BitVec.ofNat_toNat, BitVec.setWidth_eq]

theorem val3_bin3 {p : Nat} (h : p < 8) : val3 (bin3 p) = p := by
  rw [val3_eq_toNat, bin3, BitVec.toNat_ofNat, Nat.mod_eq_of_lt h]

@[simp] theorem oneHot_zero : oneHot 0 = 0#7 := rfl

/-- No position is flipped for the error position 0. -/
@[simp] theorem flipAt_zero (c : Codeword) : flipAt c 0 = c := by simp [flipAt]

/-- The flip mask is set at the position it names and at no other. -/
theorem codeBit_oneHot (e : Nat) {p : Nat} (hp : p ∈ positions) :
    codeBit (oneHot e) p = decide (e = p) := by
  have hflip := codeBit_flipAt 0#7 e p hp
  simpa [flipAt, codeBit] using hflip

theorem mem_positions {p : Nat} : p ∈ positions ↔ 1 ≤ p ∧ p ≤ 7 := by
  simp only [positions, List.mem_cons, List.not_mem_nil, or_false]
  omega

/-- Only a position can hold a bit that is 1. -/
theorem mem_positions_of_codeBit {c : Codeword} {p : Nat} (h : codeBit c p = true) : p ∈ positions := by
  simp only [codeBit, Bool.and_eq_true, decide_eq_true_iff] at h
  obtain ⟨h1, h7, -⟩ := h
  exact mem_positions.2 ⟨h1, h7⟩

/-- Settles O12: the flip mask is `oneHot e`, the corrected word is the received word XOR that mask, and
the data is packed from the corrected word. -/
theorem decoderFlipsOnlyTheErrorPosition : Obligations.DecoderFlipsOnlyTheErrorPosition := by
  intro r s
  obtain ⟨t, hexec, hport, hnets, hdata, -⟩ := exec_decode_shows r s
  have hnamed : ∀ p, codeBit (decNets r).flip p = true → (decNets r).err = p := fun p hp =>
    of_decide_eq_true ((codeBit_oneHot _ (mem_positions_of_codeBit hp)).symm.trans hp)
  refine ⟨t, decNets r, decodeFn r, hexec, hnets, hdata, hport, rfl,
    Nat.lt_succ_iff.1 (val3_lt (syndrome r)), fun p hp => codeBit_oneHot _ hp,
    fun p p' hp hp' => (hnamed p hp).symm.trans (hnamed p' hp'), fun hzero => ?_,
    fun p _ => codeBit_xor r (decNets r).flip p, dataBits_packData ..⟩
  rw [decNets_err] at hzero
  simp [hzero]

/-! ## The result -/

/-- The zero extension of a packed data word puts four 0s before its bits (41_decoder.md R73). -/
theorem zext8_packData (d0 d1 d2 d3 : Bit) :
    zext8 (packData d0 d1 d2 d3) =
      BitVec.ofBoolListBE [false, false, false, false, d0, d1, d2, d3] := by
  have hcode : zext8 (packData d0 d1 d2 d3) = zext8 (packCode false false false d0 d1 d2 d3) :=
    BitVec.eq_of_toNat_eq (by simp [zext8, toNat_packData, toNat_packCode])
  rw [hcode, zext8_packCode]

/-- The error position from the three trees. -/
theorem val3_syndrome (r : Codeword) :
    val3 (syndrome r) =
      4 * (syndrome2 r).toNat + 2 * (syndrome1 r).toNat + (syndrome0 r).toNat := by
  rw [val3, getLsbD_syndrome_zero, getLsbD_syndrome_one, getLsbD_syndrome_two]

/-- The data word is read off the received word with the error position inverted. -/
theorem decodeFn_eq_packData (r : Codeword) :
    decodeFn r =
      packData (codeBit r 3 ^^ decide (val3 (syndrome r) = 3))
        (codeBit r 5 ^^ decide (val3 (syndrome r) = 5)) (codeBit r 6 ^^ decide (val3 (syndrome r) = 6))
        (codeBit r 7 ^^ decide (val3 (syndrome r) = 7)) := by
  have hbit := codeBit_flipAt r (val3 (syndrome r))
  rw [← hbit 3 (by decide), ← hbit 5 (by decide), ← hbit 6 (by decide), ← hbit 7 (by decide)]
  rfl

/-- Settles O13: the error position is the value of the trees and the result is the packed data bits with
that position inverted; no data position is inverted for e = 0, 1, 2, 4. The corner cases are values of
the result. -/
theorem decodeExecutes : Obligations.DecodeExecutes := by
  have hexec : ∀ (c : Codeword) (s : State), exec (.decode c) s =
      .next { s with decR := some c, res := some (decodeResult c) } := fun _ _ => rfl
  refine ⟨fun c s => ?_, fun s x hx => ?_, by decide⟩
  · intro r s0 s1 s2 e r'
    have herr : val3 (syndrome c) = e := val3_syndrome c
    refine ⟨decodeCmd_encodeCmd (.decode c), ?_, ?_, fun he => ?_⟩
    · have hrow := Laws.TableRow.decode c ⟨"decode", 0x80#8, 0x80#8⟩ (by decide)
      exact beq_iff_eq.1 hrow
    · rw [hexec, decodeResult, decodeFn_eq_packData, zext8_packData, herr]
      rfl
    · have hkept : ∀ p ∈ dataPos, r' p = r p := by
        intro p hp
        have hne : e ≠ p := by
          rintro rfl
          exact (by decide : ∀ q ∈ dataPos, ¬(q = 0 ∨ q = 1 ∨ q = 2 ∨ q = 4)) e hp he
        simp [r', hne]
      rw [hkept 3 (by decide), hkept 5 (by decide), hkept 6 (by decide), hkept 7 (by decide)]
  · simp only [List.mem_cons, List.not_mem_nil, or_false] at hx
    rcases hx with rfl | rfl | rfl <;> rfl

end Sys2Proof.Machine
end

section
/-! The code is perfect: the corrected word is always a codeword, so a received word decodes to the data
word whose codeword is at most one flip away, and to no other (41_decoder.md R75 to R81). -/

namespace Sys2Proof.Machine

/-! ## Flips -/

/-- A second flip of a position undoes the first. -/
@[simp] theorem flipAt_flipAt_self (c : Codeword) (p : Nat) : flipAt (flipAt c p) p = c := by
  rw [flipAt, flipAt, BitVec.xor_assoc, BitVec.xor_self, BitVec.xor_zero]

/-- Flipping distinct positions inverts exactly the bits at those positions. -/
theorem codeBit_flipAll {ps : List Nat} (hps : ps.Nodup) (c : Codeword) {q : Nat} (hq : q ∈ positions) :
    codeBit (flipAll c ps) q = (codeBit c q ^^ decide (q ∈ ps)) := by
  induction ps generalizing c with
  | nil => simp [flipAll]
  | cons p ps ih =>
    obtain ⟨hp, hnodup⟩ := List.nodup_cons.1 hps
    calc codeBit (flipAll c (p :: ps)) q
        = (codeBit c q ^^ decide (p = q) ^^ decide (q ∈ ps)) := by
          rw [← codeBit_flipAt c p q hq]
          exact ih hnodup (flipAt c p)
      _ = (codeBit c q ^^ decide (q ∈ p :: ps)) := by
          by_cases hpq : p = q
          · subst hpq
            simp [hp]
          · simp [hpq, Ne.symm hpq]

/-- A flip of some position among distinct ones changes the word. -/
theorem flipAll_ne {ps : List Nat} (hps : ps.Nodup) {q : Nat} (hmem : q ∈ ps) (hq : q ∈ positions)
    (c : Codeword) : flipAll c ps ≠ c := by
  intro h
  have hbit := codeBit_flipAll hps c hq
  simp [h, hmem] at hbit

/-! ## The syndrome of a codeword with errors -/

/-- The exclusive-or of the 3-bit representations of the error positions (41_decoder.md R76). -/
def errorPattern (ps : List Nat) : Syndrome := ps.foldl (fun acc p => acc ^^^ bin3 p) 0#3

/-- The words of syndrome 000 are the codewords of their own data. -/
theorem syndrome_eq_zero_iff (c : Codeword) : syndrome c = 0#3 ↔ encodeFn (extract c) = c := by
  rw [← evenParity_iff]
  constructor
  · intro h k hk
    rw [← getLsbD_syndrome c hk, h, BitVec.getLsbD_zero]
  · intro h
    refine BitVec.eq_of_getLsbD_eq fun k hk => ?_
    rw [getLsbD_syndrome c hk, h k hk, BitVec.getLsbD_zero]

@[simp] theorem syndrome_encodeFn (d : DataWord) : syndrome (encodeFn d) = 0#3 :=
  (syndrome_eq_zero_iff _).2 (congrArg encodeFn (extract_encodeFn d))

/-- An error at `p` adds `bin3(p)`, and no error, written as position 0, adds 000. -/
theorem syndrome_flipAt_of_lt (c : Codeword) {p : Nat} (hp : p < 8) :
    syndrome (flipAt c p) = syndrome c ^^^ bin3 p := by
  rcases Nat.eq_zero_or_pos p with rfl | hpos
  · simp [bin3]
  · exact syndrome_flipAt c p ⟨hpos, Nat.lt_succ_iff.1 hp⟩

/-- Each error adds its position to the syndrome of the word before. -/
theorem syndrome_flipAll (c : Codeword) (ps : List Nat) (hps : ∀ p ∈ ps, 1 ≤ p ∧ p ≤ 7) :
    syndrome (flipAll c ps) = ps.foldl (fun acc p => acc ^^^ bin3 p) (syndrome c) := by
  induction ps generalizing c with
  | nil => rfl
  | cons p ps ih =>
    obtain ⟨hp, hrest⟩ := List.forall_mem_cons.1 hps
    rw [List.foldl_cons, ← syndrome_flipAt c p hp]
    exact ih (flipAt c p) hrest

/-- The syndrome depends only on the error pattern (41_decoder.md R76). -/
theorem syndrome_flipAll_encodeFn (d : DataWord) {ps : List Nat} (hps : ∀ p ∈ ps, 1 ≤ p ∧ p ≤ 7) :
    syndrome (flipAll (encodeFn d) ps) = errorPattern ps := by
  rw [syndrome_flipAll _ ps hps, syndrome_encodeFn, errorPattern]

/-- At most one error has its own position as the syndrome. -/
theorem syndrome_flipAt_encodeFn (d : DataWord) {p : Nat} (hp : p < 8) :
    syndrome (flipAt (encodeFn d) p) = bin3 p := by
  rw [syndrome_flipAt_of_lt _ hp, syndrome_encodeFn, BitVec.zero_xor]

/-- Settles O14: the syndrome of a codeword is 000, whose error position 0 flips nothing. -/
theorem validCodewordIsLeftUnmodified : Obligations.ValidCodewordIsLeftUnmodified := by
  intro d s
  obtain ⟨t, hexec, -, hnets, -⟩ := exec_decode_shows (encodeFn d) s
  refine ⟨t, _, hexec, hnets, syndrome_encodeFn d, ?_⟩
  rw [decNets_corrected, syndrome_encodeFn]
  exact flipAt_zero _

/-- Settles O15: by induction on the list of errors, each of which adds its position to the syndrome. -/
theorem syndromeIsTheErrorPattern : Obligations.SyndromeIsTheErrorPattern := by
  constructor
  · intro d s ps hps
    obtain ⟨t, hexec, -, hnets, -⟩ := exec_decode_shows (flipAll (encodeFn d) ps) s
    exact ⟨t, _, hexec, hnets, syndrome_flipAll_encodeFn d hps⟩
  · intro d s p _ h7
    obtain ⟨t, hexec, -, hnets, -⟩ := exec_decode_shows (flipAt (encodeFn d) p) s
    have hsyn := syndrome_flipAt_encodeFn d (Nat.lt_succ_iff.2 h7)
    refine ⟨t, _, hexec, hnets, hsyn, ?_⟩
    rw [decNets_err, hsyn, val3_bin3 (Nat.lt_succ_iff.2 h7)]

/-! ## The corrected word is a codeword -/

/-- The flip at the error position adds the syndrome to itself, so the corrected word has syndrome 000 and
is the codeword of the decoded data. -/
theorem encodeFn_decodeFn (r : Codeword) : encodeFn (decodeFn r) = flipAt r (val3 (syndrome r)) := by
  refine (syndrome_eq_zero_iff (flipAt r (val3 (syndrome r)))).1 ?_
  rw [syndrome_flipAt_of_lt r (val3_lt _), bin3_val3, BitVec.xor_self]

/-- A received word is the codeword of its decoded data with the error position flipped. -/
theorem eq_flipAt_encodeFn_decodeFn (r : Codeword) :
    r = flipAt (encodeFn (decodeFn r)) (val3 (syndrome r)) := by
  rw [encodeFn_decodeFn, flipAt_flipAt_self]

/-- At most one error is corrected (41_decoder.md R77, R78). -/
theorem decodeFn_flipAt_encodeFn (d : DataWord) {p : Nat} (hp : p < 8) :
    decodeFn (flipAt (encodeFn d) p) = d := by
  apply encodeFn_injective
  rw [encodeFn_decodeFn, syndrome_flipAt_encodeFn d hp, val3_bin3 hp, flipAt_flipAt_self]

@[simp] theorem decodeFn_encodeFn (d : DataWord) : decodeFn (encodeFn d) = d := by
  simpa using decodeFn_flipAt_encodeFn d (p := 0) (by decide)

/-- Settles O16: no error is an error at position 0, and at most one error is corrected. -/
theorem singleErrorIsCorrected : Obligations.SingleErrorIsCorrected := by
  constructor
  · intro d s p _ h7
    obtain ⟨t, hexec, -, -, hdata, hres⟩ := exec_decode_shows (flipAt (encodeFn d) p) s
    rw [decodeFn_flipAt_encodeFn d (Nat.lt_succ_iff.2 h7)] at hdata hres
    exact ⟨t, hexec, hdata, hres⟩
  · intro d s
    obtain ⟨t, hexec, -, -, hdata, hres⟩ := exec_decode_shows (encodeFn d) s
    rw [decodeFn_encodeFn] at hdata hres
    exact ⟨t, hexec, hdata, hres⟩

/-! ## Two errors -/

/-- The syndrome of two errors names the exclusive-or of their positions (41_decoder.md R79). -/
theorem val3_syndrome_two_flips (d : DataWord) {a b : Nat} (ha : a < 8) (hb : b < 8) :
    val3 (syndrome (flipAt (flipAt (encodeFn d) a) b)) = a ^^^ b := by
  have hadd : bin3 a ^^^ bin3 b = bin3 (a ^^^ b) := BitVec.ofNat_xor.symm
  rw [syndrome_flipAt_of_lt _ hb, syndrome_flipAt_encodeFn d ha, hadd,
    val3_bin3 (Nat.xor_lt_two_pow (n := 3) ha hb)]

theorem xor_ne_left {a b : Nat} (hb : b ≠ 0) : a ^^^ b ≠ a := fun h =>
  hb (Nat.xor_right_injective (h.trans (Nat.xor_zero a).symm))

/-- Two errors give other data (41_decoder.md R79): did they give `d`, the word received would be the
codeword of `d` with the one position e flipped, but it has `a` flipped, which is not e. -/
theorem decodeFn_two_flips_ne (d : DataWord) {a b : Nat} (ha : a ∈ positions) (hb : b ∈ positions)
    (hab : a ≠ b) : decodeFn (flipAt (flipAt (encodeFn d) a) b) ≠ d := by
  intro h
  obtain ⟨-, ha7⟩ := mem_positions.1 ha
  obtain ⟨hb1, hb7⟩ := mem_positions.1 hb
  have hne : a ^^^ b ≠ a := xor_ne_left (Nat.ne_of_gt hb1)
  have hreceived := eq_flipAt_encodeFn_decodeFn (flipAt (flipAt (encodeFn d) a) b)
  rw [h, val3_syndrome_two_flips d (Nat.lt_succ_iff.2 ha7) (Nat.lt_succ_iff.2 hb7)] at hreceived
  have hbit := congrArg (codeBit · a) hreceived
  simp only [codeBit_flipAt _ _ a ha] at hbit
  simp [hab.symm, hne] at hbit

/-- Settles O17: the error position is `a ^^^ b`, and the corrected word is the codeword of the decoded
data, which is not `d`. -/
theorem doubleErrorIsMiscorrected : Obligations.DoubleErrorIsMiscorrected := by
  intro d s a b ha1 ha7 hb1 hb7 hab
  have herr : (decNets (flipAt (flipAt (encodeFn d) a) b)).err = a ^^^ b :=
    val3_syndrome_two_flips d (Nat.lt_succ_iff.2 ha7) (Nat.lt_succ_iff.2 hb7)
  have hdiffers := decodeFn_two_flips_ne d (mem_positions.2 ⟨ha1, ha7⟩) (mem_positions.2 ⟨hb1, hb7⟩) hab
  obtain ⟨t, hexec, -, hnets, hdata, hres⟩ := exec_decode_shows (flipAt (flipAt (encodeFn d) a) b) s
  refine ⟨t, _, _, hexec, hnets, herr, ?_, ?_, ?_, rfl, (encodeFn_decodeFn _).symm,
    encodeFn_injective.ne hdiffers, hdiffers, hdata, hres⟩
  all_goals rw [herr]
  · exact Nat.xor_ne_zero_iff.2 hab
  · exact xor_ne_left (Nat.ne_of_gt hb1)
  · rw [Nat.xor_comm]
    exact xor_ne_left (Nat.ne_of_gt ha1)

/-! ## Three errors and more -/

/-- The order of the errors does not change their pattern. -/
theorem errorPattern_perm {ps ps' : List Nat} (h : ps.Perm ps') : errorPattern ps = errorPattern ps' :=
  h.foldl_eq' (fun p _ q _ acc => by rw [BitVec.xor_assoc, BitVec.xor_comm (bin3 p), BitVec.xor_assoc]) _

/-- The seven sets of three positions that XOR to 000 (41_decoder.md R80). -/
def undetectedTriples : List (List Nat) :=
  [[1, 2, 3], [1, 4, 5], [1, 6, 7], [2, 4, 6], [2, 5, 7], [3, 4, 7], [3, 5, 6]]

/-- Two positions and their exclusive-or are one of the seven sets. -/
theorem exists_perm_undetectedTriples :
    ∀ a ∈ positions, ∀ b ∈ positions, a ≠ b → ∃ x ∈ undetectedTriples, [a, b, a ^^^ b].Perm x := by
  decide

/-- Three distinct positions XOR to 000 when the third is the exclusive-or of the other two, that is, when
they are one of the seven sets (41_decoder.md R80). -/
theorem errorPattern_triple_eq_zero_iff {ps : List Nat} (hlen : ps.length = 3) (hnodup : ps.Nodup)
    (hps : ∀ p ∈ ps, 1 ≤ p ∧ p ≤ 7) :
    errorPattern ps = 0#3 ↔ ∃ x ∈ undetectedTriples, ps.Perm x := by
  constructor
  · intro hzero
    obtain ⟨a, b, c, rfl⟩ := List.length_eq_three.1 hlen
    have hlt : ∀ p ∈ [a, b, c], p < 8 := fun p hp => Nat.lt_succ_iff.2 (hps p hp).2
    have hab : a ≠ b := fun h => by simp [h] at hnodup
    have hc : a ^^^ b = c := by
      have hbin : bin3 (a ^^^ b) = bin3 c := by
        rw [bin3, BitVec.ofNat_xor]
        exact BitVec.xor_eq_zero_iff.1 (by simpa [errorPattern, bin3] using hzero)
      rw [← val3_bin3 (Nat.xor_lt_two_pow (n := 3) (hlt a (by simp)) (hlt b (by simp))), hbin,
        val3_bin3 (hlt c (by simp))]
    rw [← hc]
    exact exists_perm_undetectedTriples a (mem_positions.2 (hps a (by simp))) b
      (mem_positions.2 (hps b (by simp))) hab
  · rintro ⟨x, hx, hperm⟩
    rw [errorPattern_perm hperm]
    exact (by decide : ∀ x ∈ undetectedTriples, errorPattern x = 0#3) x hx

/-- Settles O18: the syndrome is the error pattern. At 000 nothing is flipped and the word received is the
codeword of the decoded data, which is not d since a bit differs. -/
theorem threeOrMoreErrors : Obligations.ThreeOrMoreErrors := by
  intro d s ps hnodup hps hlen
  obtain ⟨t, hexec, -, hnets, hdata, hres⟩ := exec_decode_shows (flipAll (encodeFn d) ps) s
  have hsyn := syndrome_flipAll_encodeFn d hps
  refine ⟨t, _, _, hexec, hnets, hdata, hres, fun hzero => ?_, fun _ => ⟨congrArg val3 hsyn, rfl⟩,
    fun hthree => errorPattern_triple_eq_zero_iff hthree hnodup hps⟩
  have herr : val3 (syndrome (flipAll (encodeFn d) ps)) = 0 := by
    rw [hsyn, errorPattern, hzero]
    rfl
  have hcode := eq_flipAt_encodeFn_decodeFn (flipAll (encodeFn d) ps)
  rw [herr, flipAt_zero] at hcode
  refine ⟨⟨_, hcode⟩, ?_, ?_, fun hsame => ?_⟩
  · rw [decNets_flip, herr, oneHot_zero]
  · rw [decNets_corrected, herr, flipAt_zero]
  · obtain ⟨q, hq⟩ := List.exists_mem_of_length_pos (lt_of_lt_of_le (by decide) hlen)
    rw [hsame] at hcode
    exact flipAll_ne hnodup hq (mem_positions.2 (hps q hq)) _ hcode

/-! ## The words that decode to a data word -/

/-- The codeword and its seven neighbours are its flips at positions 0 to 7. -/
theorem cons_map_positions_flipAt (c : Codeword) :
    c :: positions.map (flipAt c) = (List.range 8).map (flipAt c) :=
  congrArg (· :: positions.map (flipAt c)) (flipAt_zero c).symm

/-- The received words that decode to `d` are those with at most one flip from its codeword
(41_decoder.md R81). -/
theorem decodeFn_eq_iff (d : DataWord) (c : Codeword) :
    decodeFn c = d ↔ ∃ p < 8, flipAt (encodeFn d) p = c := by
  constructor
  · rintro rfl
    exact ⟨val3 (syndrome c), val3_lt _, (eq_flipAt_encodeFn_decodeFn c).symm⟩
  · rintro ⟨p, hp, rfl⟩
    exact decodeFn_flipAt_encodeFn d hp

/-- Settles O19: the eight words are the flips at positions 0 to 7, and each shows its own position as the
error position, so they are distinct. -/
theorem eightWordsDecodeToEachDataWord : Obligations.EightWordsDecodeToEachDataWord := by
  refine ⟨fun c s => ?_, fun d c s => ?_, fun d => ?_⟩
  · obtain ⟨t, hexec, -, -, hdata, -⟩ := exec_decode_shows c s
    exact ⟨t, _, hexec, hdata⟩
  · obtain ⟨t, hexec, -, -, hdata, -⟩ := exec_decode_shows c s
    have hshown : (∃ t, exec (.decode c) s = .next t ∧ t.decQ = some d) ↔ decodeFn c = d := by
      simp [hexec, hdata]
    rw [hshown, decodeFn_eq_iff, cons_map_positions_flipAt]
    simp
  · rw [cons_map_positions_flipAt]
    refine List.nodup_range.map_on fun p hp q hq hpq => ?_
    have hbin := congrArg (val3 ∘ syndrome) hpq
    simpa only [Function.comp_apply, syndrome_flipAt_encodeFn d (List.mem_range.1 hp),
      syndrome_flipAt_encodeFn d (List.mem_range.1 hq), val3_bin3 (List.mem_range.1 hp),
      val3_bin3 (List.mem_range.1 hq)] using hbin

end Sys2Proof.Machine
end

section
/-! The host's round trip: the host call of an instruction succeeds with its unpacked result word, so what
the codec corrects the host gets back (41_decoder.md R77, R78; 60_exceptions.md R84, R85). -/

namespace Sys2Proof.Machine

/-- A statement that assembles has the outcome of its command word (60_exceptions.md R82). -/
theorem outcomeOf_of_assemble {req : Request} {w : Word} (h : assemble req = some w) :
    outcomeOf req = wordOutcome req w := by
  cases req with
  | cmd v =>
    obtain rfl : v = w := Option.some.inj h
    rfl
  | call op v => simp [outcomeOf, (assemble_call_eq_some_iff op v w).1 h]

/-- The host call of an instruction succeeds with that instruction's result word. -/
theorem outcomeOf_instrCall (i : Instr) : outcomeOf (instrCall i) = (instrCall i).succeed (resultOf i) := by
  rw [outcomeOf_of_assemble (assemble_instrCall i), wordOutcome, decodeCmd_encodeCmd]

/-- The host's ENCODE of a data word's bits returns the bits of its codeword (60_exceptions.md R84). -/
theorem outcomeOf_encode_dataBits (d : DataWord) :
    outcomeOf (.call .encode (hostBits (dataBits d))) = .values (codeBits (encodeFn d)) :=
  (outcomeOf_instrCall (.encode d)).trans (congrArg TxOutcome.values (unpackResult_encode d))

/-- The host's DECODE of a received word's bits returns the bits of its data word (60_exceptions.md
R85). -/
theorem outcomeOf_decode_codeBits (c : Codeword) :
    outcomeOf (.call .decode (hostBits (codeBits c))) = .values (dataBits (decodeFn c)) :=
  (outcomeOf_instrCall (.decode c)).trans (congrArg TxOutcome.values (unpackResult_decode c))

/-- Settles O46: each step records the outcome of its own call, and the received word is the codeword of
the packed bits with at most one flip, which the decoder corrects. -/
theorem hostRoundTripCorrectsOneError : Obligations.HostRoundTripCorrectsOneError := by
  intro s1 rest1 b0 b1 b2 b3 hp1
  have hbits := dataBits_packData b0 b1 b2 b3
  obtain ⟨t1, hstep1, -, -, hcompleted1⟩ := step_answers hp1
  have hencode := outcomeOf_encode_dataBits (packData b0 b1 b2 b3)
  rw [hbits] at hencode
  rw [hencode] at hcompleted1
  refine ⟨t1, _, _, hstep1, hcompleted1, fun received s2 rest2 hreceived hp2 => ?_⟩
  have hdecoded : decodeFn received = packData b0 b1 b2 b3 := by
    rw [decodeFn_eq_iff]
    rcases hreceived with rfl | ⟨p, -, h7, rfl⟩
    · exact ⟨0, by decide, flipAt_zero _⟩
    · exact ⟨p, Nat.lt_succ_iff.2 h7, rfl⟩
  obtain ⟨t2, hstep2, -, -, hcompleted2⟩ := step_answers hp2
  rw [outcomeOf_decode_codeBits, hdecoded, hbits] at hcompleted2
  exact ⟨t2, _, hstep2, hcompleted2⟩

end Sys2Proof.Machine
end

section
/-! What every step leaves, whatever the transaction: an answer, the draws of the host's lists, and ports
that are a function of the ports before it, so that an error leaves nothing behind (60_exceptions.md R90,
R92, R104). -/

namespace Sys2Proof.Machine

/-- Settles O38: a step changes nothing, or performs and closes the next transaction. -/
theorem stepAlwaysAnswersANextState : Obligations.StepAlwaysAnswersANextState := by
  intro s
  cases hp : s.pending with
  | nil => exact ⟨s, step_of_no_pending hp⟩
  | cons req rest => exact ⟨_, step_of_pending hp⟩

/-- A request passes no list exactly when it is no host call with a list. -/
theorem passedList_eq_none_iff (req : Request) :
    req.passedList = none ↔ ∀ op l, req ≠ .call op (.list l) := by
  rcases req with ⟨op, _ | _ | _ | _⟩ | w <;> simp [Request.passedList]

/-- What a step draws: its own number of draws, and the copy of a list that was passed. -/
theorem step_draws {s : State} {req : Request} {rest : List Request} (h : s.pending = req :: rest) :
    ∃ t, step s = .next t ∧ t.draws = s.draws + req.drawCount ∧
      t.completed = s.completed ++ [⟨req, outcomeOf req, s.hostCopy req⟩] :=
  ⟨_, step_of_pending h, by simp, by simp⟩

/-- Settles O37: a passed list has its copy drawn at the counter's value, and nothing else is drawn. -/
theorem hostListIsDrawnAfterTheCall : Obligations.HostListIsDrawnAfterTheCall := by
  refine ⟨fun s op l rest hp => ?_, fun s req rest hp hreq => ?_⟩
  · obtain ⟨t, hstep, hdraws, hcompleted⟩ := step_draws hp
    exact ⟨t, _, hstep, hdraws, hcompleted⟩
  · have hnone : req.passedList = none := (passedList_eq_none_iff req).2 hreq
    obtain ⟨t, hstep, hdraws, hcompleted⟩ := step_draws hp
    simp only [Request.drawCount, State.hostCopy, hnone] at hdraws hcompleted
    exact ⟨t, _, hstep, hdraws, hcompleted⟩

/-- A transaction that ends in no result has not reached the core. -/
theorem endsWithoutCore_of_outcomeOf {s : State} {req : Request} {rest : List Request} {o : TxOutcome}
    (hp : s.pending = req :: rest) (ho : outcomeOf req = o) (hfail : o.isSuccess = false) :
    s.EndsWithoutCore rest req o := by
  have hcore : (coreInstr req).isSome = false := by rw [← outcomeOf_isSuccess, ho, hfail]
  exact ho ▸ endsWithoutCore_of_coreInstr_none hp (by simpa using hcore)

section Ports
variable {s t : State} (req : Request)

/-- The ports after a transaction are a function of the ports before it. -/
theorem afterCore_encD_congr (h : s.encD = t.encD) :
    (afterCore req s).encD = (afterCore req t).encD := by
  rcases hcore : coreInstr req with _ | _ | _ <;> simp [hcore, h]
theorem afterCore_decR_congr (h : s.decR = t.decR) :
    (afterCore req s).decR = (afterCore req t).decR := by
  rcases hcore : coreInstr req with _ | _ | _ <;> simp [hcore, h]

end Ports

/-- Settles O36: the failed transaction leaves the ports and the mark, and what the next one leaves is a
function of those and of itself. -/
theorem errorLeavesNothingBehind : Obligations.ErrorLeavesNothingBehind := by
  intro s bad req rest e hp herror
  have hend : s.EndsWithoutCore (req :: rest) bad (.error e) := endsWithoutCore_of_outcomeOf hp herror rfl
  refine ⟨hend, ?_⟩
  obtain ⟨t, _, hstep, hpending, -, hencD, hdecR, -, hmark⟩ := hend
  refine ⟨t, _, _, outcomeOf req, t.hostCopy req, s.hostCopy req, hstep, step_of_pending hpending,
    step_of_pending rfl, afterCore_encD_congr req hencD, afterCore_decR_congr req hdecR, ?_⟩
  simp [hmark, State.hostCopy]

end Sys2Proof.Machine
end

section
/-! The verdict of a host call's validation for every host value, and the two ways a call ends without a
command word (60_exceptions.md R84 to R88). -/

namespace Sys2Proof.Machine

/-- The length check of an operation, with its packing. -/
def Op.wordOf : Op → List Bit → Verdict
  | .encode => encodeWordOf
  | .decode => decodeWordOf

/-- The length of an operation's operand (60_exceptions.md R84, R85). -/
def Op.operandLength : Op → Nat
  | .encode => 4
  | .decode => 7

/-- The cause of an error in the length of an operation's operand (60_exceptions.md R86). -/
def Op.lengthCause : Op → Cause
  | .encode => .encLength
  | .decode => .decLength

theorem validate_eq (op : Op) (v : HostValue) : validate op v = validateShape op.wordOf v := by
  cases op <;> rfl

theorem Op.wordOf_of_length_ne (op : Op) {bs : List Bit} (h : bs.length ≠ op.operandLength) :
    op.wordOf bs = .raise op.lengthCause := by
  cases op with
  | encode => exact encodeWordOf_length bs h
  | decode => exact decodeWordOf_length bs h

/-- A list of bits of the operation's length passes (60_exceptions.md R84, R85). -/
theorem Op.wordOf_of_length (op : Op) {bs : List Bit} (h : bs.length = op.operandLength) :
    ∃ w, op.wordOf bs = .pass w := by
  cases op with
  | encode =>
    match bs, h with
    | [_, _, _, _], _ => exact ⟨_, rfl⟩
  | decode =>
    match bs, h with
    | [_, _, _, _, _, _, _], _ => exact ⟨_, rfl⟩

section Verdict
variable (op : Op)

theorem validate_str (x : String) : validate op (.str x) = .raise .notList := validate_eq op _
theorem validate_nonSeq (x : String) : validate op (.nonSeq x) = .raise .notList := validate_eq op _
theorem validate_otherSeq (x : String) : validate op (.otherSeq x) = .refuse .nonListSequence :=
  validate_eq op _

theorem validate_nonBinary {l : List Elem} (h : ∃ k, Elem.int k ∈ l ∧ k ≠ 0 ∧ k ≠ 1) :
    validate op (.list l) = .raise .notBinary := by
  obtain ⟨k, hk, hne⟩ := h
  exact (validate_eq op _).trans (validateList_nonBinary _ l k hk hne)

theorem validate_nonInt {l : List Elem} (hints : ∀ k, Elem.int k ∈ l → k = 0 ∨ k = 1)
    (h : ∃ x, Elem.nonInt x ∈ l) : validate op (.list l) = .refuse .nonIntegerElement := by
  obtain ⟨x, hx⟩ := h
  exact (validate_eq op _).trans (validateList_nonInt _ l x hx hints)

theorem validate_bits {l : List Elem} (h : ∀ e ∈ l, e = Elem.int 0 ∨ e = Elem.int 1) :
    validate op (.list l) = op.wordOf (l.map elemBit) :=
  (validate_eq op _).trans (validateList_bits _ l h)

theorem validate_length {l : List Elem} (h : ∀ e ∈ l, e = Elem.int 0 ∨ e = Elem.int 1)
    (hlen : l.length ≠ op.operandLength) : validate op (.list l) = .raise op.lengthCause := by
  rw [validate_bits op h, op.wordOf_of_length_ne (by rwa [List.length_map])]

end Verdict

/-- The three kinds of host list: with a non-binary integer, else with an element that is no integer, else
of bits (60_exceptions.md R87). -/
theorem elems_cases (l : List Elem) :
    (∃ k, Elem.int k ∈ l ∧ k ≠ 0 ∧ k ≠ 1) ∨
    ((∀ k, Elem.int k ∈ l → k = 0 ∨ k = 1) ∧ ∃ x, Elem.nonInt x ∈ l) ∨
    ∀ e ∈ l, e = .int 0 ∨ e = .int 1 := by
  by_cases hints : ∀ k, Elem.int k ∈ l → k = 0 ∨ k = 1
  · by_cases hnon : ∃ x, Elem.nonInt x ∈ l
    · exact .inr (.inl ⟨hints, hnon⟩)
    · refine .inr (.inr ?_)
      rintro (k | x) he
      · simpa using hints k he
      · exact absurd ⟨x, he⟩ hnon
  · exact .inl (by push Not at hints; exact hints)

/-- When the table raises a cause for a host call (60_exceptions.md R86). -/
def Cause.RaisedFor (op : Op) (v : HostValue) : Cause → Prop
  | .notList => (∃ x, v = .str x) ∨ (∃ x, v = .nonSeq x)
  | .notBinary => ∃ l k, v = .list l ∧ Elem.int k ∈ l ∧ k ≠ 0 ∧ k ≠ 1
  | .encLength => op = .encode ∧ ∃ l, v = .list l ∧ (∀ e ∈ l, e = .int 0 ∨ e = .int 1) ∧ l.length ≠ 4
  | .decLength => op = .decode ∧ ∃ l, v = .list l ∧ (∀ e ∈ l, e = .int 0 ∨ e = .int 1) ∧ l.length ≠ 7

theorem raisedFor_lengthCause_iff (op : Op) (v : HostValue) :
    op.lengthCause.RaisedFor op v ↔
      ∃ l, v = .list l ∧ (∀ e ∈ l, e = .int 0 ∨ e = .int 1) ∧ l.length ≠ op.operandLength := by
  cases op <;> exact and_iff_right rfl

theorem validate_of_raisedFor {op : Op} {v : HostValue} {c : Cause} (h : c.RaisedFor op v) :
    validate op v = .raise c := by
  cases c with
  | notList =>
    rcases h with ⟨x, rfl⟩ | ⟨x, rfl⟩
    · exact validate_str op x
    · exact validate_nonSeq op x
  | notBinary =>
    obtain ⟨l, k, rfl, hk⟩ := h
    exact validate_nonBinary op ⟨k, hk⟩
  | encLength =>
    obtain ⟨rfl, l, rfl, hbits, hlen⟩ := h
    exact validate_length .encode hbits hlen
  | decLength =>
    obtain ⟨rfl, l, rfl, hbits, hlen⟩ := h
    exact validate_length .decode hbits hlen

/-- Validation raises a cause only where the table does: each kind of host value has its one verdict
(60_exceptions.md R84 to R86). -/
theorem raisedFor_of_validate {op : Op} {v : HostValue} {c : Cause} (h : validate op v = .raise c) :
    c.RaisedFor op v := by
  cases v with
  | str x =>
    obtain rfl := Verdict.raise.inj ((validate_str op x).symm.trans h)
    exact .inl ⟨x, rfl⟩
  | nonSeq x =>
    obtain rfl := Verdict.raise.inj ((validate_nonSeq op x).symm.trans h)
    exact .inr ⟨x, rfl⟩
  | otherSeq x => cases (validate_otherSeq op x).symm.trans h
  | list l =>
    rcases elems_cases l with ⟨k, hk⟩ | ⟨hints, hnon⟩ | hbits
    · obtain rfl := Verdict.raise.inj ((validate_nonBinary op ⟨k, hk⟩).symm.trans h)
      exact ⟨l, k, rfl, hk⟩
    · cases (validate_nonInt op hints hnon).symm.trans h
    · by_cases hlen : l.length = op.operandLength
      · obtain ⟨w, hw⟩ := op.wordOf_of_length ((l.length_map elemBit).trans hlen)
        cases ((validate_bits op hbits).trans hw).symm.trans h
      · obtain rfl := Verdict.raise.inj ((validate_length op hbits hlen).symm.trans h)
        exact (raisedFor_lengthCause_iff op _).2 ⟨l, rfl, hbits, hlen⟩

/-- Different causes have different records: their codes differ (60_exceptions.md R86). -/
theorem Cause.record_injective : Function.Injective Cause.record := by
  have hinverse : Function.LeftInverse (fun e : ErrorRecord => Cause.ofNat (e.code - 1)) Cause.record :=
    fun c => by cases c <;> rfl
  exact hinverse.injective

/-- A command word that reaches the core raises no error (60_exceptions.md R92). -/
theorem wordOutcome_call_ne_error (op : Op) (v : HostValue) (w : Word) (e : ErrorRecord) :
    wordOutcome (.call op v) w ≠ .error e := by
  rcases hd : decodeCmd w with ⟨⟨⟩⟩ | i <;> simp [wordOutcome, hd, Request.succeed]

theorem outcomeOf_of_raise {op : Op} {v : HostValue} {c : Cause} (h : validate op v = .raise c) :
    outcomeOf (.call op v) = .error c.record := by simp [outcomeOf, h]
theorem outcomeOf_of_refuse {op : Op} {v : HostValue} {r : RefuseReason}
    (h : validate op v = .refuse r) : outcomeOf (.call op v) = .refused r := by simp [outcomeOf, h]

/-- A host call ends in an error exactly when its validation raises one (60_exceptions.md R88). -/
theorem outcomeOf_call_eq_error_iff (op : Op) (v : HostValue) (e : ErrorRecord) :
    outcomeOf (.call op v) = .error e ↔ ∃ c, validate op v = .raise c ∧ c.record = e := by
  cases hv : validate op v with
  | raise c => simp [outcomeOf_of_raise hv]
  | refuse r => simp [outcomeOf_of_refuse hv]
  | pass w => simp [outcomeOf, hv, wordOutcome_call_ne_error]

/-- A host call ends in the error of a cause exactly where the table says so (60_exceptions.md R86). -/
theorem outcomeOf_call_eq_record_iff (op : Op) (v : HostValue) (c : Cause) :
    outcomeOf (.call op v) = .error c.record ↔ c.RaisedFor op v := by
  rw [outcomeOf_call_eq_error_iff]
  refine ⟨?_, fun h => ⟨c, validate_of_raisedFor h, rfl⟩⟩
  rintro ⟨c', hraise, hrecord⟩
  exact Cause.record_injective hrecord ▸ raisedFor_of_validate hraise

/-- Settles O34: the outcome is the record of a cause exactly where the table raises the cause, and every
error is the record of one of the four. -/
theorem errorsAreTheFourCauses : Obligations.ErrorsAreTheFourCauses := by
  intro s op v rest hp
  obtain ⟨t, hstep, -, -, hcompleted⟩ := step_answers hp
  have hiff := outcomeOf_call_eq_record_iff op v
  refine ⟨t, _, _, hstep, hcompleted, hiff .notList, hiff .notBinary, hiff .encLength, hiff .decLength,
    fun e he => ?_⟩
  obtain ⟨c, -, rfl⟩ := (outcomeOf_call_eq_error_iff op v e).1 he
  cases c <;> decide

section Call
variable {s : State} {op : Op} {v : HostValue} {rest : List Request}
  (hp : s.pending = .call op v :: rest)
include hp

theorem endsWithoutCore_of_raise {c : Cause} (h : validate op v = .raise c) :
    s.EndsWithoutCore rest (.call op v) (.error c.record) :=
  endsWithoutCore_of_outcomeOf hp (outcomeOf_of_raise h) rfl

theorem endsWithoutCore_of_refuse {r : RefuseReason} (h : validate op v = .refuse r) :
    s.EndsWithoutCore rest (.call op v) (.refused r) :=
  endsWithoutCore_of_outcomeOf hp (outcomeOf_of_refuse h) rfl

/-! The violations in the order in which they are reported (60_exceptions.md R87). -/

theorem endsWithoutCore_of_notList (x : String) (hv : v = .str x ∨ v = .nonSeq x) :
    s.EndsWithoutCore rest (.call op v) (.error Cause.notList.record) := by
  refine endsWithoutCore_of_raise hp ?_
  rcases hv with rfl | rfl
  · exact validate_str op x
  · exact validate_nonSeq op x

theorem endsWithoutCore_of_otherSeq (x : String) (hv : v = .otherSeq x) :
    s.EndsWithoutCore rest (.call op v) (.refused .nonListSequence) :=
  endsWithoutCore_of_refuse hp (hv ▸ validate_otherSeq op x)

theorem endsWithoutCore_of_nonBinary (l : List Elem) (hv : v = .list l)
    (h : ∃ k, Elem.int k ∈ l ∧ k ≠ 0 ∧ k ≠ 1) :
    s.EndsWithoutCore rest (.call op v) (.error Cause.notBinary.record) :=
  endsWithoutCore_of_raise hp (hv ▸ validate_nonBinary op h)

theorem endsWithoutCore_of_nonInt (l : List Elem) (hv : v = .list l)
    (hints : ∀ k, Elem.int k ∈ l → k = 0 ∨ k = 1) (h : ∃ x, Elem.nonInt x ∈ l) :
    s.EndsWithoutCore rest (.call op v) (.refused .nonIntegerElement) :=
  endsWithoutCore_of_refuse hp (hv ▸ validate_nonInt op hints h)

theorem endsWithoutCore_of_length (l : List Elem) (hv : v = .list l)
    (hbits : ∀ e ∈ l, e = .int 0 ∨ e = .int 1) (hlen : l.length ≠ op.operandLength) :
    s.EndsWithoutCore rest (.call op v) (.error op.lengthCause.record) :=
  endsWithoutCore_of_raise hp (hv ▸ validate_length op hbits hlen)

end Call

/-- Settles O35: each clause is its violation's own lemma, which asks nothing of the checks that come
later; the empty list has nothing but its length to violate. -/
theorem firstViolationIsReported : Obligations.FirstViolationIsReported := by
  intro s op rest
  have hempty : ∀ e ∈ ([] : List Elem), e = .int 0 ∨ e = .int 1 := by simp
  exact ⟨fun l h hp => endsWithoutCore_of_nonBinary hp l rfl h,
    fun l hints h hp => endsWithoutCore_of_nonInt hp l rfl hints h,
    fun hp => endsWithoutCore_of_length hp [] rfl hempty (by decide),
    fun hp => endsWithoutCore_of_length hp [] rfl hempty (by decide),
    fun x hp => endsWithoutCore_of_otherSeq hp x rfl⟩

end Sys2Proof.Machine
end

section
/-! Host calls that pass validation: the instruction of the command word is performed and its result word
unpacked, so that each operation answers every host value as its rule says (60_exceptions.md R82, R84,
R85). -/

namespace Sys2Proof.Machine

/-- A transaction brings to the core the word that its statement assembles to. -/
theorem coreWord_eq_assemble (req : Request) : coreWord req = assemble req := by
  cases req <;> rfl

theorem coreInstr_instrCall (i : Instr) : coreInstr (instrCall i) = some i := by
  simp [coreInstr, coreWord_eq_assemble, assemble_instrCall]

/-- The step of the host call of an instruction. -/
theorem step_of_instrCall {s : State} {op : Op} {v : HostValue} {rest : List Request} {i : Instr}
    (hp : s.pending = .call op v :: rest) (hcall : instrCall i = .call op v) :
    step s = .next ((afterExec i (s.take rest)).complete (.call op v)
      (.values (unpackResult op (resultOf i)))) := by
  rw [step_of_pending hp, ← hcall, afterCore_some _ i _ (coreInstr_instrCall i), outcomeOf_instrCall,
    hcall, Request.succeed]

/-- Settles O29: a call that passes is the host call of the instruction of its word, and the state before
the record is the one `exec` answers. -/
theorem hostCallRunsItsCommandWord : Obligations.HostCallRunsItsCommandWord := by
  intro s op v rest w hp hpass
  obtain ⟨i, hcall, rfl⟩ := eq_instrCall_of_assemble ((assemble_call_eq_some_iff op v w).2 hpass)
  refine ⟨i, afterExec i (s.take rest), resultOf i, _, s.hostCopy (.call op v), decodeCmd_encodeCmd i,
    exec_eq i _, afterExec_res i _, step_of_instrCall hp hcall, by simp, rfl, rfl, by simp, by simp,
    by simp, ?_⟩
  cases i with
  | encode d =>
    obtain ⟨rfl, -⟩ := Request.call.inj hcall
    exact .inl ⟨d, rfl, rfl, unpackResult_encode d⟩
  | decode c =>
    obtain ⟨rfl, -⟩ := Request.call.inj hcall
    exact .inr ⟨c, rfl, rfl, unpackResult_decode c⟩

/-- The list that ENCODE returns for four bits (40_encoder.md R63, R64). -/
theorem codeBits_encodeFn_packData (d0 d1 d2 d3 : Bit) :
    codeBits (encodeFn (packData d0 d1 d2 d3)) =
      [d0 ^^ d1 ^^ d3, d0 ^^ d2 ^^ d3, d0, d1 ^^ d2 ^^ d3, d1, d2, d3] := by
  rw [encodeFn, interleave, codeBits_packCode]
  simp [encNets, parity1, parity2, parity4, dataBit_packData]

/-- Settles O32: the violations in their order, and four bits are the host call of the ENCODE of their
packed word. -/
theorem hostEncodeFollowsItsValidation : Obligations.HostEncodeFollowsItsValidation := by
  intro s v rest hp
  refine ⟨endsWithoutCore_of_notList hp, endsWithoutCore_of_otherSeq hp, endsWithoutCore_of_nonBinary hp,
    endsWithoutCore_of_nonInt hp, endsWithoutCore_of_length hp, fun d0 d1 d2 d3 hv => ?_⟩
  have hcall : instrCall (.encode (packData d0 d1 d2 d3)) = .call .encode v := by
    rw [hv, instrCall, dataBits_packData]
    rfl
  have hlist := (unpackResult_encode _).trans (codeBits_encodeFn_packData d0 d1 d2 d3)
  refine ⟨_, s.hostCopy (.call .encode v), step_of_instrCall hp hcall, rfl, rfl, rfl, rfl, by simp, ?_⟩
  rw [← hlist]
  rfl

/-- Settles O33: the violations in their order, and seven bits are the host call of the DECODE of their
packed word. -/
theorem hostDecodeFollowsItsValidation : Obligations.HostDecodeFollowsItsValidation := by
  intro s v rest hp
  refine ⟨endsWithoutCore_of_notList hp, endsWithoutCore_of_otherSeq hp, endsWithoutCore_of_nonBinary hp,
    endsWithoutCore_of_nonInt hp, endsWithoutCore_of_length hp, fun r1 r2 r3 r4 r5 r6 r7 hv => ?_⟩
  have hcall : instrCall (.decode (packCode r1 r2 r3 r4 r5 r6 r7)) = .call .decode v := by
    rw [hv, instrCall, codeBits_packCode]
    rfl
  refine ⟨_, s.hostCopy (.call .decode v), step_of_instrCall hp hcall, rfl, rfl, rfl, rfl, by simp, ?_⟩
  rw [← unpackResult_decode]
  rfl

end Sys2Proof.Machine
end

section
/-! A run from power-up to its end: the invariant holds before any transaction, every pending transaction
gets its one outcome, and a run at its end is still (10_state.md R13, 30_encoding.md R45,
70_reset_and_hazards.md R106, R112). -/

namespace Sys2Proof.Machine

/-- Settles O42: the records of the run are the earlier ones followed by those `run_of_pending` gives. -/
theorem runGivesEveryTransactionItsOutcome : Obligations.RunGivesEveryTransactionItsOutcome := by
  intro s
  obtain ⟨t, new, hrun, hdone, hnew, houtcomes, hmark⟩ := run_of_pending s
  exact ⟨t, hrun, hdone, by rw [hnew, List.map_append, houtcomes], hmark⟩

/-- Settles O40: the step's branch with nothing pending. -/
theorem endOfRunIsStill : Obligations.EndOfRunIsStill := fun _ => step_of_no_pending

/-- Settles O44: after power-up no outcome is recorded and there is no result word, so no clause has
anything to speak of, and the mark is clear. -/
theorem resetMeetsTheInvariant : Obligations.ResetMeetsTheInvariant where
  mark_agrees := rfl
  outcomes_agree := List.forall_mem_nil _
  copies_agree := List.forall_mem_nil _
  result_agrees := rfl
  result_is_output _ hres := absurd hres.symm (Option.some_ne_none _)

end Sys2Proof.Machine
end
